-- ==== Sys2Proof/Word.lean ====
section
/-! DEFINITION. The word, the byte and the number of a general register (00_scope.md R7, R10; 10_state.md R20). -/

namespace Sys2Proof

/-- R7, R10: the 16-bit unit of data and of addresses; its arithmetic is modulo 2^16 (R11). -/
abbrev Word := BitVec 16

/-- R10: a byte, the unit of the console and of the object file. -/
abbrev Byte := BitVec 8

/-- R20, R74: the number of a general register, R0 to R7. -/
abbrev RegIdx := Fin 8

end Sys2Proof
end

