-- ==== Sys2Proof/Config.lean ====
section
/-! DEFINITION. What the spec leaves to the implementation (00_scope.md R8), as constants without a body, and the
numbers the hardware fixes (R7). -/

namespace Sys2Proof

/-- DESIGN CHOICE (log 5), safe. R8, D12: whether JSR's and JSRR's write of R7 recomputes the flag. No body: nothing
can be proved about its value. -/
opaque Config.jsrUpdatesFlags : Bool

/-- DESIGN CHOICE (log 6), safe. R8, D18: whether IN's write of R0 recomputes the flag. No body. -/
opaque Config.inUpdatesFlags : Bool

/-- DESIGN CHOICE (log 7), safe. R8, D17: the bytes of the prompt that IN writes, possibly none. No body. -/
opaque Config.inPrompt : List Byte

/-- R7, R64: the origin memory is created with when nothing else is chosen. -/
def Config.defaultOrigin : Word := 0x3000

/-- R7, R160: the vector of GETC. -/
def Config.vecGetc : Byte := 0x20
/-- R7, R160: the vector of OUT. -/
def Config.vecOut : Byte := 0x21
/-- R7, R160: the vector of PUTS. -/
def Config.vecPuts : Byte := 0x22
/-- R7, R160: the vector of IN. -/
def Config.vecIn : Byte := 0x23
/-- R7, R160: the vector of HALT. -/
def Config.vecHalt : Byte := 0x25

/-- R50: how many words memory has. -/
def Config.memoryWords : Nat := 65536

end Sys2Proof
end

