-- ==== Sys2Proof/Syntax.lean ====
section
/-! DEFINITION. The instructions: one constructor per row of spec/opcode_table.json (30_encoding.md R76, R80, R87).
Register fields are register numbers (R74); immediates and offsets keep their own width and are sign-extended where an
instruction uses them (R73). -/

namespace Sys2Proof

/-- One constructor per row of the opcode table. RTI, the reserved opcode and TRAP carry the bits their format does not
use, because a fatal stop records the whole instruction word (R201, R202). DEDUCED (log 12), safe. -/
inductive Instr where
  /-- R100: ADD, register form. -/
  | addReg (dr sr1 sr2 : RegIdx)
  /-- R101: ADD, immediate form. -/
  | addImm (dr sr1 : RegIdx) (imm5 : BitVec 5)
  /-- R102: AND, register form. -/
  | andReg (dr sr1 sr2 : RegIdx)
  /-- R103: AND, immediate form. -/
  | andImm (dr sr1 : RegIdx) (imm5 : BitVec 5)
  /-- R104: NOT. -/
  | not (dr sr1 : RegIdx)
  /-- R120: LD. -/
  | ld (dr : RegIdx) (pcOffset9 : BitVec 9)
  /-- R121: LDI. -/
  | ldi (dr : RegIdx) (pcOffset9 : BitVec 9)
  /-- R122: LDR. -/
  | ldr (dr baseR : RegIdx) (offset6 : BitVec 6)
  /-- R123: LEA. -/
  | lea (dr : RegIdx) (pcOffset9 : BitVec 9)
  /-- R124: ST. -/
  | st (sr : RegIdx) (pcOffset9 : BitVec 9)
  /-- R125: STI. -/
  | sti (sr : RegIdx) (pcOffset9 : BitVec 9)
  /-- R126: STR. -/
  | str (sr baseR : RegIdx) (offset6 : BitVec 6)
  /-- R140: BR with its three condition bits. -/
  | br (n z p : Bool) (pcOffset9 : BitVec 9)
  /-- R142: JMP. Its words with BaseR = 7 are the row RET. -/
  | jmp (baseR : RegIdx)
  /-- R142, R86: RET, the words of JMP with BaseR = 7. -/
  | ret
  /-- R143: JSR. -/
  | jsr (pcOffset11 : BitVec 11)
  /-- R144: JSRR. -/
  | jsrr (baseR : RegIdx)
  /-- R146: RTI, with w[11:0]. -/
  | rti (unused : BitVec 12)
  /-- R160: TRAP, with w[11:8] and the vector. The words of the five defined vectors are rows of their own. -/
  | trap (unused : BitVec 4) (trapvect8 : Byte)
  /-- R163: GETC, TRAP x20. -/
  | getc
  /-- R164: OUT, TRAP x21. -/
  | out
  /-- R165: PUTS, TRAP x22. -/
  | puts
  /-- R166: IN, TRAP x23. -/
  | inChar
  /-- R167: HALT, TRAP x25. -/
  | halt
  /-- R201, R84: the reserved opcode 0xD, with w[11:0]. -/
  | reserved (unused : BitVec 12)
deriving DecidableEq, Repr

/-- R81: the four categories of opcodes. -/
inductive Category where
  | operate
  | dataMovement
  | control
  | trap
deriving DecidableEq, Repr

/-- R81: each opcode's category; opcode 0xD has none. -/
def Instr.category : Instr → Option Category
  | .addReg _ _ _ => some .operate
  | .addImm _ _ _ => some .operate
  | .andReg _ _ _ => some .operate
  | .andImm _ _ _ => some .operate
  | .not _ _ => some .operate
  | .ld _ _ => some .dataMovement
  | .ldi _ _ => some .dataMovement
  | .ldr _ _ _ => some .dataMovement
  | .lea _ _ => some .dataMovement
  | .st _ _ => some .dataMovement
  | .sti _ _ => some .dataMovement
  | .str _ _ _ => some .dataMovement
  | .br _ _ _ _ => some .control
  | .jmp _ => some .control
  | .ret => some .control
  | .jsr _ => some .control
  | .jsrr _ => some .control
  | .rti _ => some .control
  | .trap _ _ => some .trap
  | .getc => some .trap
  | .out => some .trap
  | .puts => some .trap
  | .inChar => some .trap
  | .halt => some .trap
  | .reserved _ => none

/-- R7, R160: the five defined trap vectors. -/
def definedVector (v : Byte) : Bool :=
  v == Config.vecGetc || v == Config.vecOut || v == Config.vecPuts || v == Config.vecIn || v == Config.vecHalt

end Sys2Proof
end

