-- ==== Sys2Proof/WellFormed.lean ====
section
/-! DEFINITION. Which instruction terms are the one name of their words (30_encoding.md R86, R87). The widths and the
register range are in the types of `Instr`; two checks remain, for the rows that refine another row. -/

namespace Sys2Proof

/-- An instruction term as the decoder gives it. R87: RET refines JMP, and the five services refine TRAP, so a JMP term
whose base is R7 and a TRAP term whose vector is a defined one are ill formed: their words are the other row's.
DEDUCED (log 16), safe: `exec` gives such a term the meaning of that row all the same. -/
def Instr.wellFormed : Instr → Bool
  | .addReg _ _ _ => true
  | .addImm _ _ _ => true
  | .andReg _ _ _ => true
  | .andImm _ _ _ => true
  | .not _ _ => true
  | .ld _ _ => true
  | .ldi _ _ => true
  | .ldr _ _ _ => true
  | .lea _ _ => true
  | .st _ _ => true
  | .sti _ _ => true
  | .str _ _ _ => true
  | .br _ _ _ _ => true
  | .jmp baseR => baseR != 7
  | .ret => true
  | .jsr _ => true
  | .jsrr _ => true
  | .rti _ => true
  | .trap _ v => !definedVector v
  | .getc => true
  | .out => true
  | .puts => true
  | .inChar => true
  | .halt => true
  | .reserved _ => true

end Sys2Proof
end

