-- ==== Sys2Proof/Decode.lean ====
section
/-! DEFINITION. The decoder, total on every word (30_encoding.md R83) and on every list of bytes, and after it the
encoder (R76), the bits each format uses (R75, R76) and the opcode table (R87). -/

namespace Sys2Proof

/-! ### Fields (R10, R71) -/

/-- R10: `w[lo + n - 1 : lo]`, the field of `n` bits from bit `lo` up. -/
def field (w : Word) (lo n : Nat) : BitVec n := w.extractLsb' lo n

/-- R10: `w[i]`. -/
def bitAt (w : Word) (i : Nat) : Bool := w.getLsbD i

/-- R74: a 3-bit field value names the register of that number. -/
def regOf (b : BitVec 3) : RegIdx := b.toFin

/-- The 3-bit field that names a register (R74). -/
def regBits (r : RegIdx) : BitVec 3 := BitVec.ofFin r

/-- R71: DR, and SR of a store, `w[11:9]`. -/
def fieldDR (w : Word) : RegIdx := regOf (field w 9 3)

/-- R71: SR1 and BaseR, `w[8:6]`. -/
def fieldSR1 (w : Word) : RegIdx := regOf (field w 6 3)

/-- R71: SR2, `w[2:0]`. -/
def fieldSR2 (w : Word) : RegIdx := regOf (field w 0 3)

/-! ### The decoder -/

/-- R142, R86: opcode 0xC. BaseR = 7 is the row RET. -/
def decodeJump (baseR : RegIdx) : Instr :=
  if baseR = 7 then .ret else .jmp baseR

/-- R160, R86: opcode 0xF. Only w[7:0] selects the service. -/
def decodeTrap (unused : BitVec 4) (vect : Byte) : Instr :=
  if vect = Config.vecGetc then .getc
  else if vect = Config.vecOut then .out
  else if vect = Config.vecPuts then .puts
  else if vect = Config.vecIn then .inChar
  else if vect = Config.vecHalt then .halt
  else .trap unused vect

/-- R83: the instruction of a word, by its opcode w[15:12] (R80). Every bit a format does not use is ignored (R75), but
where a fatal stop records it. -/
def decodeWord (w : Word) : Instr :=
  match bitAt w 15, bitAt w 14, bitAt w 13, bitAt w 12 with
  | false, false, false, false => .br (bitAt w 11) (bitAt w 10) (bitAt w 9) (field w 0 9)
  | false, false, false, true =>
    if bitAt w 5 then .addImm (fieldDR w) (fieldSR1 w) (field w 0 5)
    else .addReg (fieldDR w) (fieldSR1 w) (fieldSR2 w)
  | false, false, true, false => .ld (fieldDR w) (field w 0 9)
  | false, false, true, true => .st (fieldDR w) (field w 0 9)
  | false, true, false, false =>
    if bitAt w 11 then .jsr (field w 0 11) else .jsrr (fieldSR1 w)
  | false, true, false, true =>
    if bitAt w 5 then .andImm (fieldDR w) (fieldSR1 w) (field w 0 5)
    else .andReg (fieldDR w) (fieldSR1 w) (fieldSR2 w)
  | false, true, true, false => .ldr (fieldDR w) (fieldSR1 w) (field w 0 6)
  | false, true, true, true => .str (fieldDR w) (fieldSR1 w) (field w 0 6)
  | true, false, false, false => .rti (field w 0 12)
  | true, false, false, true => .not (fieldDR w) (fieldSR1 w)
  | true, false, true, false => .ldi (fieldDR w) (field w 0 9)
  | true, false, true, true => .sti (fieldDR w) (field w 0 9)
  | true, true, false, false => decodeJump (fieldSR1 w)
  | true, true, false, true => .reserved (field w 0 12)
  | true, true, true, false => .lea (fieldDR w) (field w 0 9)
  | true, true, true, true => decodeTrap (field w 8 4) (field w 0 8)

/-- Why a list of bytes gives no instruction. R84: every 16-bit word decodes, so too few bytes is the one reason. -/
inductive DecodeError where
  /-- Fewer than the two bytes of one word (R70). Raised by `decode` alone; no step meets it. Safe. -/
  | truncated
deriving DecidableEq, Repr

/-- R54, R62: the bytes of a word outside the core, bits 15:8 first. -/
def wordBytes (w : Word) : List Byte := [field w 8 8, field w 0 8]

/-- R54, R62: the word of two bytes, bits 15:8 first. -/
def wordOfBytes (hi lo : Byte) : Word := hi ++ lo

/-- The first instruction of a list of bytes, and the bytes after it (R70: one word, two bytes). -/
def decode : List Byte → Except DecodeError (Instr × List Byte)
  | hi :: lo :: rest => .ok (decodeWord (wordOfBytes hi lo), rest)
  | [_] => .error .truncated
  | [] => .error .truncated

/-- The instruction read from one whose bits are `w`, the lowest `nbits` of them given and the others 0. -/
def decodeTableWord (nbits w : Nat) : Option Instr :=
  match decode (wordBytes (BitVec.ofNat 16 (w % 2 ^ nbits))) with
  | .ok (i, _) => some i
  | .error _ => none

/-! ### The encoder -/

/-- A field put into a word with its lowest bit at `lo` (R10). -/
def putField {n : Nat} (v : BitVec n) (lo : Nat) : Word := v.setWidth 16 <<< lo

/-- R76: the word of an instruction; 0 in every bit its format does not use, but 111111 in NOT's bits 5:0. -/
def encode : Instr → Word
  | .addReg dr sr1 sr2 => 0x1000 ||| putField (regBits dr) 9 ||| putField (regBits sr1) 6 ||| putField (regBits sr2) 0
  | .addImm dr sr1 imm5 => 0x1020 ||| putField (regBits dr) 9 ||| putField (regBits sr1) 6 ||| putField imm5 0
  | .andReg dr sr1 sr2 => 0x5000 ||| putField (regBits dr) 9 ||| putField (regBits sr1) 6 ||| putField (regBits sr2) 0
  | .andImm dr sr1 imm5 => 0x5020 ||| putField (regBits dr) 9 ||| putField (regBits sr1) 6 ||| putField imm5 0
  | .not dr sr1 => 0x903F ||| putField (regBits dr) 9 ||| putField (regBits sr1) 6
  | .ld dr off => 0x2000 ||| putField (regBits dr) 9 ||| putField off 0
  | .ldi dr off => 0xA000 ||| putField (regBits dr) 9 ||| putField off 0
  | .ldr dr baseR off => 0x6000 ||| putField (regBits dr) 9 ||| putField (regBits baseR) 6 ||| putField off 0
  | .lea dr off => 0xE000 ||| putField (regBits dr) 9 ||| putField off 0
  | .st sr off => 0x3000 ||| putField (regBits sr) 9 ||| putField off 0
  | .sti sr off => 0xB000 ||| putField (regBits sr) 9 ||| putField off 0
  | .str sr baseR off => 0x7000 ||| putField (regBits sr) 9 ||| putField (regBits baseR) 6 ||| putField off 0
  | .br n z p off =>
    putField (BitVec.ofBool n) 11 ||| putField (BitVec.ofBool z) 10 ||| putField (BitVec.ofBool p) 9 ||| putField off 0
  | .jmp baseR => 0xC000 ||| putField (regBits baseR) 6
  | .ret => 0xC1C0
  | .jsr off => 0x4800 ||| putField off 0
  | .jsrr baseR => 0x4000 ||| putField (regBits baseR) 6
  | .rti unused => 0x8000 ||| putField unused 0
  | .trap unused vect => 0xF000 ||| putField unused 8 ||| putField vect 0
  | .getc => 0xF000 ||| putField Config.vecGetc 0
  | .out => 0xF000 ||| putField Config.vecOut 0
  | .puts => 0xF000 ||| putField Config.vecPuts 0
  | .inChar => 0xF000 ||| putField Config.vecIn 0
  | .halt => 0xF000 ||| putField Config.vecHalt 0
  | .reserved unused => 0xD000 ||| putField unused 0

/-! ### The bits a format uses, and the opcode table -/

/-- R76: the bits of its word that an instruction's format uses. Where a fatal stop records the whole word (R201,
R202), all of them. -/
def Instr.usedBits : Instr → Word
  | .addReg _ _ _ => 0xFFE7
  | .addImm _ _ _ => 0xFFFF
  | .andReg _ _ _ => 0xFFE7
  | .andImm _ _ _ => 0xFFFF
  | .not _ _ => 0xFFC0
  | .ld _ _ => 0xFFFF
  | .ldi _ _ => 0xFFFF
  | .ldr _ _ _ => 0xFFFF
  | .lea _ _ => 0xFFFF
  | .st _ _ => 0xFFFF
  | .sti _ _ => 0xFFFF
  | .str _ _ _ => 0xFFFF
  | .br _ _ _ _ => 0xFFFF
  | .jmp _ => 0xF1C0
  | .ret => 0xF1C0
  | .jsr _ => 0xFFFF
  | .jsrr _ => 0xF9C0
  | .rti _ => 0xFFFF
  | .trap _ _ => 0xFFFF
  | .getc => 0xF0FF
  | .out => 0xF0FF
  | .puts => 0xF0FF
  | .inChar => 0xF0FF
  | .halt => 0xF0FF
  | .reserved _ => 0xFFFF

/-- A row of spec/opcode_table.json: its mnemonic, and the value its words have under its mask. `primary` is false for
the six rows that refine another row (R87). -/
structure TableRow where
  mnemonic : String
  value : Word
  mask : Word
  primary : Bool
deriving DecidableEq, Repr

/-- Whether a word is one of the row's words. -/
def TableRow.covers (r : TableRow) (w : Word) : Bool := w &&& r.mask == r.value

/-- The row of the opcode table an instruction is of. -/
def Instr.row : Instr → TableRow
  | .addReg _ _ _ => ⟨"ADD", 0x1000, 0xF020, true⟩
  | .addImm _ _ _ => ⟨"ADD", 0x1020, 0xF020, true⟩
  | .andReg _ _ _ => ⟨"AND", 0x5000, 0xF020, true⟩
  | .andImm _ _ _ => ⟨"AND", 0x5020, 0xF020, true⟩
  | .not _ _ => ⟨"NOT", 0x9000, 0xF000, true⟩
  | .ld _ _ => ⟨"LD", 0x2000, 0xF000, true⟩
  | .ldi _ _ => ⟨"LDI", 0xA000, 0xF000, true⟩
  | .ldr _ _ _ => ⟨"LDR", 0x6000, 0xF000, true⟩
  | .lea _ _ => ⟨"LEA", 0xE000, 0xF000, true⟩
  | .st _ _ => ⟨"ST", 0x3000, 0xF000, true⟩
  | .sti _ _ => ⟨"STI", 0xB000, 0xF000, true⟩
  | .str _ _ _ => ⟨"STR", 0x7000, 0xF000, true⟩
  | .br _ _ _ _ => ⟨"BR", 0x0000, 0xF000, true⟩
  | .jmp _ => ⟨"JMP", 0xC000, 0xF000, true⟩
  | .ret => ⟨"RET", 0xC1C0, 0xF1C0, false⟩
  | .jsr _ => ⟨"JSR", 0x4800, 0xF800, true⟩
  | .jsrr _ => ⟨"JSRR", 0x4000, 0xF800, true⟩
  | .rti _ => ⟨"RTI", 0x8000, 0xF000, true⟩
  | .trap _ _ => ⟨"TRAP", 0xF000, 0xF000, true⟩
  | .getc => ⟨"GETC", 0xF020, 0xF0FF, false⟩
  | .out => ⟨"OUT", 0xF021, 0xF0FF, false⟩
  | .puts => ⟨"PUTS", 0xF022, 0xF0FF, false⟩
  | .inChar => ⟨"IN", 0xF023, 0xF0FF, false⟩
  | .halt => ⟨"HALT", 0xF025, 0xF0FF, false⟩
  | .reserved _ => ⟨"RESERVED", 0xD000, 0xF000, true⟩

/-- R87: the 25 rows of the opcode table, in its order. -/
def opcodeTable : List TableRow :=
  [Instr.row (.addReg 0 0 0), Instr.row (.addImm 0 0 0), Instr.row (.andReg 0 0 0), Instr.row (.andImm 0 0 0),
   Instr.row (.not 0 0), Instr.row (.ld 0 0), Instr.row (.ldi 0 0), Instr.row (.ldr 0 0 0), Instr.row (.lea 0 0)] ++
  [Instr.row (.st 0 0), Instr.row (.sti 0 0), Instr.row (.str 0 0 0), Instr.row (.br false false false 0),
   Instr.row (.jmp 0), Instr.row .ret, Instr.row (.jsr 0), Instr.row (.jsrr 0), Instr.row (.rti 0)] ++
  [Instr.row (.trap 0 0), Instr.row .getc, Instr.row .out, Instr.row .puts, Instr.row .inChar, Instr.row .halt,
   Instr.row (.reserved 0)]

end Sys2Proof
end

