-- ==== Sys2Proof/Machine/State.lean ====
section
/-! DEFINITION. The state of the machine (10_state.md R34) as plain data, why a step or a load can stop, and the state
after reset (70_reset_and_hazards.md R230 to R236). -/

namespace Sys2Proof.Machine

/-- R23: the condition flag holds exactly one of NEGATIVE, ZERO and POSITIVE. -/
inductive Cond where
  /-- NEGATIVE. -/
  | n
  /-- ZERO. -/
  | z
  /-- POSITIVE. -/
  | p
deriving DecidableEq, Repr

/-- R201 to R204: the fatal conditions. -/
inductive FaultKind where
  /-- R201: opcode 0x8 (RTI) or 0xD. -/
  | invalidOpcode
  /-- R202: a TRAP whose vector is none of the five. -/
  | unsupportedTrapVector
  /-- R203: an image larger than the memory from its origin up. -/
  | memoryBounds
  /-- R204: an object file that is missing or unreadable. -/
  | fileOpen
deriving DecidableEq, Repr

/-- R30: the run state. `faulted` is terminal (R200). -/
inductive RunState where
  | halted
  | running
  | faulted (kind : FaultKind) (info : Word)
deriving DecidableEq, Repr

/-- R32, R169: the progress of a console service inside one instruction. -/
inductive Service where
  /-- No service is under way: the core is between instructions. -/
  | none
  /-- GETC waits for a byte (R161, R163). -/
  | getc
  /-- PUTS: the address of the next character word (R165). -/
  | puts (addr : Word)
  /-- IN: the prompt bytes still to be written, at least one (R166). -/
  | inPrompt (next : Byte) (rest : List Byte)
  /-- IN: the prompt is written, the read is next (R166). -/
  | inRead
  /-- IN: this byte is read, its echo and the write of R0 are next (R166). -/
  | inEcho (b : Byte)
deriving DecidableEq, Repr

/-- R50: the memory, as a list of bytes. The word at address `a` is the bytes at `2 * a` (bits 15:8) and `2 * a + 1`
(bits 7:0), in the object file's order (R54). DESIGN CHOICE (log 1), safe: the core moves whole words, so no program
can observe the order. The list is in canonical form, `Memory.wf`. -/
structure Memory where
  cells : List Host.Cell
deriving DecidableEq, Repr

/-- R34: the complete state, with the service progress of R32 and the memory's program start of R63. -/
structure State where
  /-- R20: the general registers R0 to R7. -/
  gpr : Vector Word 8
  /-- R23: the condition flag. -/
  cond : Cond
  /-- R27: the program counter. -/
  pc : Word
  /-- R30: the run state. -/
  run : RunState
  /-- R32, R169: the progress of a service. -/
  service : Service
  /-- R50: the memory. -/
  mem : Memory
  /-- R63, R64: the origin used by the most recent load. -/
  programStart : Word
  /-- R161: the console bytes supplied and not yet read, oldest first. -/
  cin : List Byte
  /-- R161: the console bytes written, oldest first. -/
  cout : List Byte
deriving DecidableEq, Repr

/-- Why a step stops with a fault: never. Every fatal condition of the spec is a next state whose run state is
`faulted` (R200), so this type has no constructor. DEDUCED (log 11), safe. -/
inductive Fault where
deriving DecidableEq, Repr

/-- Why something is refused. -/
inductive Refusal where
  /-- The instruction of this mnemonic has no meaning yet. Raised by `exec`'s arm of it alone. Safe. -/
  | notModelled (mnemonic : String)
  /-- R62, D7: an object file of odd length or of fewer than two bytes. Raised by `State.launch`, never by a step.
  Safe: the spec refuses such a file. -/
  | malformedObject
deriving DecidableEq, Repr

/-- R8: the parameters of reset. A statement about reset that holds for every one of these holds for every
implementation. -/
structure ResetParams where
  /-- RESET_GPR (R230, D3). -/
  gpr : Vector Word 8
  /-- RESET_COND (R231, D4). -/
  cond : Cond
  /-- RESET_MEM (R234, D6), as a memory. -/
  mem : Memory
  /-- ORIGIN (R64). -/
  origin : Word
deriving DecidableEq, Repr

/-- R230 to R236: the core over memory into which nothing has been loaded, before `run()` is first called. -/
def State.resetWith (p : ResetParams) : State :=
  { gpr := p.gpr, cond := p.cond, pc := p.origin, run := .halted, service := .none, mem := p.mem,
    programStart := p.origin, cin := [], cout := [] }

/-- DESIGN CHOICE (log 2, 3, 4, 13), unsafe: the spec gives no RESET_GPR, RESET_COND or RESET_MEM and calls them
parameters. This is the one value the model names; the origin is the spec's default (R64). -/
def ResetParams.named : ResetParams :=
  { gpr := Vector.replicate 8 0, cond := .z, mem := { cells := [] }, origin := Config.defaultOrigin }

/-- The machine right after reset. -/
def State.reset : State := State.resetWith ResetParams.named

end Sys2Proof.Machine
end

