-- ==== Sys2Proof/Machine/Flags.lean ====
section
/-! DEFINITION. The condition flag's computation and its pseudo-register (10_state.md R24, R25). -/

namespace Sys2Proof.Machine

/-- R24: the flag of a written value. -/
def setCC (v : Word) : Cond :=
  if v = 0#16 then .z else if v.getLsbD 15 then .n else .p

/-- R25: the bits of the flag inside its pseudo-register, in the order of BR's n, z and p. No instruction can observe
them (log 17). -/
def Cond.bits : Cond → BitVec 3
  | .n => 0b100
  | .z => 0b010
  | .p => 0b001

/-- R140, R141: whether a branch that asks for the flags `n`, `z`, `p` is taken. -/
def branchTaken (n z p : Bool) (c : Cond) : Bool :=
  match c with
  | .n => n
  | .z => z
  | .p => p

end Sys2Proof.Machine
end

