-- ==== Sys2Proof/Machine/Ops.lean ====
section
/-! DEFINITION. The named operations over memory, registers, the PC, the console and the run state: the primitives of
00_scope.md R13, and the one way into the fatal stop (60_exceptions.md R200). -/

namespace Sys2Proof.Machine

/-! ### Memory (20_memory.md) -/

/-- DESIGN CHOICE (log 2), unsafe: what a byte that nothing has written reads as. The spec's RESET_MEM is a parameter
(R51, D6); every value of it is the memory of some state. -/
def Memory.unlistedByte : Byte := 0

/-- The byte listed for `a`, or what an unlisted byte reads as. -/
def cellsRead : List Host.Cell → Nat → Byte
  | [], _ => Memory.unlistedByte
  | (k, b) :: cs, a => if k = a then b else cellsRead cs a

/-- The cells without any entry for `a`. -/
def cellsErase : List Host.Cell → Nat → List Host.Cell
  | [], _ => []
  | (k, b) :: cs, a => if k = a then cellsErase cs a else (k, b) :: cellsErase cs a

/-- The cells with `(a, b)` put before the first greater address. -/
def cellsInsert : List Host.Cell → Nat → Byte → List Host.Cell
  | [], a, b => [(a, b)]
  | (k, c) :: cs, a, b => if a < k then (a, b) :: (k, c) :: cs else (k, c) :: cellsInsert cs a b

/-- One byte of the storage. -/
def Memory.readByte (m : Memory) (a : Nat) : Byte := cellsRead m.cells a

/-- One byte of the storage replaced. Writing what an unlisted byte reads as removes the entry, so that equal memories
are equal lists. -/
def Memory.writeByte (m : Memory) (a : Nat) (b : Byte) : Memory :=
  { cells := if b = Memory.unlistedByte then cellsErase m.cells a else cellsInsert (cellsErase m.cells a) a b }

/-- Where the storage holds bits 15:8 of the word at `a` (log 1). -/
def hiByteAddr (a : Word) : Nat := 2 * a.toNat

/-- Where the storage holds bits 7:0 of the word at `a` (log 1). -/
def loByteAddr (a : Word) : Nat := 2 * a.toNat + 1

/-- R51: `MemRead(a, 1)`. It changes nothing. -/
def Memory.readWord (m : Memory) (a : Word) : Word :=
  wordOfBytes (m.readByte (hiByteAddr a)) (m.readByte (loByteAddr a))

/-- R52: `MemWrite(a, 1, v)`. -/
def Memory.writeWord (m : Memory) (a : Word) (v : Word) : Memory :=
  (m.writeByte (hiByteAddr a) (field v 8 8)).writeByte (loByteAddr a) (field v 0 8)

/-- Words written one after another from `a` up (R63). -/
def Memory.writeWords (m : Memory) (a : Word) : List Word → Memory
  | [] => m
  | v :: vs => (m.writeWord a v).writeWords (a + 1) vs

/-- The canonical form of a list of cells whose addresses are at least `lo`: strictly rising, inside the 65,536 words
of R50, and no entry equal to what an unlisted byte reads as. -/
def cellsWf : Nat → List Host.Cell → Bool
  | _, [] => true
  | lo, (k, b) :: cs =>
    decide (lo ≤ k) && decide (k < 2 * Config.memoryWords) && (b != Memory.unlistedByte) && cellsWf (k + 1) cs

/-- The canonical form of a memory. -/
def Memory.wf (m : Memory) : Bool := cellsWf 0 m.cells

/-- R13: read the one word at address `a`. -/
def State.memRead (s : State) (a : Word) : Word := s.mem.readWord a

/-- R13: write word `v` at address `a`. -/
def State.memWrite (s : State) (a v : Word) : State := { s with mem := s.mem.writeWord a v }

/-! ### General registers (10_state.md R20 to R22) -/

/-- R21: `x[i]`. -/
def State.readReg (s : State) (i : RegIdx) : Word := s.gpr[i]

/-- R22: `RegWrite(i, v, upd)`: the value verbatim, and the flag recomputed from it when asked. -/
def State.writeReg (s : State) (i : RegIdx) (v : Word) (upd : Bool) : State :=
  { s with gpr := s.gpr.set i v, cond := if upd then setCC v else s.cond }

/-! ### Program counter (R27, R28) -/

/-- R28: set absolute. -/
def State.setPc (s : State) (target : Word) : State := { s with pc := target }

/-- R27: the increment of every fetch, modulo 2^16 (R29). -/
def State.advancePc (s : State) : State := s.setPc (s.pc + 1)

/-- R239: the word the next step fetches. -/
def State.fetch (s : State) : Word := s.memRead s.pc

/-- R239: the instruction the next step runs. -/
def State.instruction (s : State) : Instr := decodeWord s.fetch

/-! ### Console (43_trap.md R161) -/

/-- R161: `ConsoleWrite(b)`: one byte appended, unchanged (D25). -/
def State.conWrite (s : State) (b : Byte) : State := { s with cout := s.cout ++ [b] }

/-- R161: what is left after `ConsoleRead()` has taken the next byte. -/
def State.setInput (s : State) (rest : List Byte) : State := { s with cin := rest }

/-! ### Run state -/

/-- R32: the progress of a service recorded; `.none` ends it. -/
def State.setService (s : State) (v : Service) : State := { s with service := v }

/-- R13, R167: `halt()`. -/
def State.halt (s : State) : State := { s with run := .halted }

/-- R200, `raise Fatal(kind, info)`: the one way into the fatal stop. Nothing else changes: no state is saved, nothing
vectors, nothing is rolled back (R208). There is no return from it (R208). -/
def State.raiseFatal (s : State) (kind : FaultKind) (info : Word) : State := { s with run := .faulted kind info }

/-- R201 to R204, D22: the label of a kind. -/
def FaultKind.code : FaultKind → Nat
  | .invalidOpcode => 1
  | .unsupportedTrapVector => 2
  | .memoryBounds => 3
  | .fileOpen => 4

/-! ### The ALU (40_operate.md R105) -/

/-- R105, R106: the three operations, and no other can be asked for. -/
inductive AluOp where
  | add
  | and
  | not
deriving DecidableEq, Repr

/-- R105: `execute(op, lhs, rhs)`. NOT ignores `rhs`. -/
def alu (op : AluOp) (lhs rhs : Word) : Word :=
  match op with
  | .add => lhs + rhs
  | .and => lhs &&& rhs
  | .not => ~~~lhs

end Sys2Proof.Machine
end

