-- ==== Sys2Proof/Machine/Operands.lean ====
section
/-! DEFINITION. The operand forms: sign and zero extension (00_scope.md R12, 30_encoding.md R73) and the addressing
modes (41_data_movement.md). `pc` is the incremented PC (10_state.md R27). -/

namespace Sys2Proof.Machine

/-- R12: `sext_N(v)`, by the source's formula `(value XOR signBit) - signBit` with `signBit = 1 << (N - 1)`. -/
def sext {n : Nat} (v : BitVec n) : Word :=
  (v.setWidth 16 ^^^ (1 <<< (n - 1))) - (1 <<< (n - 1))

/-- R12, D16: `zext_8(b)`. -/
def zextByte (b : Byte) : Word := b.setWidth 16

/-- R164, R165: a word's low byte, its character. -/
def lowByte (w : Word) : Byte := field w 0 8

/-- PC-relative: the incremented PC plus a signed offset (R120). -/
def State.pcRelative (s : State) {n : Nat} (offset : BitVec n) : Word := s.pc + sext offset

/-- Base plus offset: `x[BaseR] + sext_6(offset6)` (R122). -/
def State.baseOffset (s : State) (baseR : RegIdx) (offset6 : BitVec 6) : Word := s.readReg baseR + sext offset6

/-- Indirect: the word at the PC-relative address is itself the address (R121). -/
def State.indirect (s : State) (pcOffset9 : BitVec 9) : Word := s.memRead (s.pcRelative pcOffset9)

end Sys2Proof.Machine
end

