-- ==== Sys2Proof/Machine/Control.lean ====
section
/-! DEFINITION. Control flow (42_control.md R140 to R146). In the state a meaning is given, the PC is already
incremented (10_state.md R27). -/

namespace Sys2Proof.Machine

/-- R143, R144: R7 gets the return address, the incremented PC. Free value (log 5): whether the flag is recomputed. -/
def State.link (s : State) : State := s.writeReg 7 s.pc Config.jsrUpdatesFlags

/-- R142: `pc <- x[BaseR]`. -/
def State.jumpTo (s : State) (baseR : RegIdx) : State := s.setPc (s.readReg baseR)

/-- R140. -/
def execBr (n z p : Bool) (pcOffset9 : BitVec 9) (s : State) : Host.Outcome State Fault Refusal :=
  .next (if branchTaken n z p s.cond then s.setPc (s.pcRelative pcOffset9) else s)

/-- R142. -/
def execJmp (baseR : RegIdx) (s : State) : Host.Outcome State Fault Refusal :=
  .next (s.jumpTo baseR)

/-- R142, R86: JMP R7. -/
def execRet (s : State) : Host.Outcome State Fault Refusal :=
  .next (s.jumpTo 7)

/-- R143: the offset is from the same incremented PC. -/
def execJsr (pcOffset11 : BitVec 11) (s : State) : Host.Outcome State Fault Refusal :=
  .next (s.link.setPc (s.pcRelative pcOffset11))

/-- R144: BaseR is read after the write of R7 (D13). -/
def execJsrr (baseR : RegIdx) (s : State) : Host.Outcome State Fault Refusal :=
  .next (s.link.jumpTo baseR)

/-- R146, R201: the fatal InvalidOpcode stop, info = the instruction word. -/
def execRti (unused : BitVec 12) (s : State) : Host.Outcome State Fault Refusal :=
  .next (s.raiseFatal .invalidOpcode (encode (.rti unused)))

/-- R201, R84: opcode 0xD, the fatal InvalidOpcode stop, info = the instruction word. -/
def execReserved (unused : BitVec 12) (s : State) : Host.Outcome State Fault Refusal :=
  .next (s.raiseFatal .invalidOpcode (encode (.reserved unused)))

end Sys2Proof.Machine
end

