-- ==== Sys2Proof/Machine/DataMovement.lean ====
section
/-! DEFINITION. Loads, LEA and stores (41_data_movement.md R120 to R127). In the state a meaning is given, the PC is
already incremented (10_state.md R27). -/

namespace Sys2Proof.Machine

/-- R127: `x[DR] <- MemRead(ea, 1)`, the flag recomputed. -/
def State.load (s : State) (dr : RegIdx) (ea : Word) : State := s.writeReg dr (s.memRead ea) true

/-- R127: `MemWrite(ea, 1, x[SR])`, the registers and the flag unchanged. -/
def State.store (s : State) (sr : RegIdx) (ea : Word) : State := s.memWrite ea (s.readReg sr)

/-- R120. -/
def execLd (dr : RegIdx) (pcOffset9 : BitVec 9) (s : State) : Host.Outcome State Fault Refusal :=
  .next (s.load dr (s.pcRelative pcOffset9))

/-- R121. -/
def execLdi (dr : RegIdx) (pcOffset9 : BitVec 9) (s : State) : Host.Outcome State Fault Refusal :=
  .next (s.load dr (s.indirect pcOffset9))

/-- R122. -/
def execLdr (dr baseR : RegIdx) (offset6 : BitVec 6) (s : State) : Host.Outcome State Fault Refusal :=
  .next (s.load dr (s.baseOffset baseR offset6))

/-- R123: no memory access; this core recomputes the flag. -/
def execLea (dr : RegIdx) (pcOffset9 : BitVec 9) (s : State) : Host.Outcome State Fault Refusal :=
  .next (s.writeReg dr (s.pcRelative pcOffset9) true)

/-- R124. -/
def execSt (sr : RegIdx) (pcOffset9 : BitVec 9) (s : State) : Host.Outcome State Fault Refusal :=
  .next (s.store sr (s.pcRelative pcOffset9))

/-- R125: the pointer is read before the write. -/
def execSti (sr : RegIdx) (pcOffset9 : BitVec 9) (s : State) : Host.Outcome State Fault Refusal :=
  .next (s.store sr (s.indirect pcOffset9))

/-- R126. -/
def execStr (sr baseR : RegIdx) (offset6 : BitVec 6) (s : State) : Host.Outcome State Fault Refusal :=
  .next (s.store sr (s.baseOffset baseR offset6))

end Sys2Proof.Machine
end

