-- ==== Sys2Proof/Machine/Operate.lean ====
section
/-! DEFINITION. The operate instructions (40_operate.md R100 to R104). In the state a meaning is given, the PC is
already incremented (10_state.md R27). -/

namespace Sys2Proof.Machine

/-- `x[DR] <- ALU(op, lhs, rhs)`, the flag recomputed (R22). -/
def State.operate (s : State) (op : AluOp) (dr : RegIdx) (lhs rhs : Word) : State :=
  s.writeReg dr (alu op lhs rhs) true

/-- R100. -/
def execAddReg (dr sr1 sr2 : RegIdx) (s : State) : Host.Outcome State Fault Refusal :=
  .next (s.operate .add dr (s.readReg sr1) (s.readReg sr2))

/-- R101. -/
def execAddImm (dr sr1 : RegIdx) (imm5 : BitVec 5) (s : State) : Host.Outcome State Fault Refusal :=
  .next (s.operate .add dr (s.readReg sr1) (sext imm5))

/-- R102. -/
def execAndReg (dr sr1 sr2 : RegIdx) (s : State) : Host.Outcome State Fault Refusal :=
  .next (s.operate .and dr (s.readReg sr1) (s.readReg sr2))

/-- R103. -/
def execAndImm (dr sr1 : RegIdx) (imm5 : BitVec 5) (s : State) : Host.Outcome State Fault Refusal :=
  .next (s.operate .and dr (s.readReg sr1) (sext imm5))

/-- R104. -/
def execNot (dr sr1 : RegIdx) (s : State) : Host.Outcome State Fault Refusal :=
  .next (s.operate .not dr (s.readReg sr1) 0)

end Sys2Proof.Machine
end

