-- ==== Sys2Proof/Machine/Trap.lean ====
section
/-! DEFINITION. TRAP, its dispatcher and the five console services (43_trap.md R160 to R169). A service with console
substeps does one substep in each step of the model and keeps its progress in `State.service` (R32, R169); the first
substep is done in the step that fetches the TRAP. DEDUCED (log 9), safe. A read that finds no byte changes nothing and
waits (R161, D21). DEDUCED (log 10), safe. -/

namespace Sys2Proof.Machine

/-- R163: take a byte, zero-extend it into R0, leave the flag, end the service; with no byte, wait. -/
def State.getcSubstep (s : State) : State :=
  match s.cin with
  | [] => s
  | b :: rest => ((s.setInput rest).writeReg 0 (zextByte b) false).setService .none

/-- R165: the character word at `addr`: its low byte written, or, if that is 0, the end of the service. -/
def State.putsSubstep (addr : Word) (s : State) : State :=
  if lowByte (s.memRead addr) = 0#8 then s.setService .none
  else (s.conWrite (lowByte (s.memRead addr))).setService (.puts (addr + 1))

/-- R166: what IN does next while these bytes of the prompt are still to be written. -/
def inProgress : List Byte → Service
  | [] => .inRead
  | b :: rest => .inPrompt b rest

/-- R166: one prompt byte written. -/
def State.inPromptSubstep (b : Byte) (rest : List Byte) (s : State) : State :=
  (s.conWrite b).setService (inProgress rest)

/-- R166: the read; with no byte, wait. -/
def State.inReadSubstep (s : State) : State :=
  match s.cin with
  | [] => s
  | b :: rest => (s.setInput rest).setService (.inEcho b)

/-- R166: the echo and the write of R0. Free value (log 6): whether the flag is recomputed. -/
def State.inEchoSubstep (b : Byte) (s : State) : State :=
  ((s.conWrite b).writeReg 0 (zextByte b) Config.inUpdatesFlags).setService .none

/-- R169: the next substep of the service under way. -/
def State.serviceStep (s : State) : State :=
  match s.service with
  | .none => s
  | .getc => s.getcSubstep
  | .puts addr => s.putsSubstep addr
  | .inPrompt b rest => s.inPromptSubstep b rest
  | .inRead => s.inReadSubstep
  | .inEcho b => s.inEchoSubstep b

/-- R160: a service begins with its first substep, in the step of its TRAP. -/
def State.beginService (s : State) (v : Service) : State := (s.setService v).serviceStep

/-- R163: the service GETC. -/
def State.serviceGetc (s : State) : State := s.beginService .getc

/-- R164: the service OUT. -/
def State.serviceOut (s : State) : State := s.conWrite (lowByte (s.readReg 0))

/-- R165: the service PUTS, from the address in R0. -/
def State.servicePuts (s : State) : State := s.beginService (.puts (s.readReg 0))

/-- R166: the service IN. Free value (log 7): the prompt. -/
def State.serviceIn (s : State) : State := s.beginService (inProgress Config.inPrompt)

/-- R167: the service HALT. -/
def State.serviceHalt (s : State) : State := s.halt

/-- R163. -/
def execGetc (s : State) : Host.Outcome State Fault Refusal := .next s.serviceGetc

/-- R164. -/
def execOut (s : State) : Host.Outcome State Fault Refusal := .next s.serviceOut

/-- R165. -/
def execPuts (s : State) : Host.Outcome State Fault Refusal := .next s.servicePuts

/-- R166. -/
def execIn (s : State) : Host.Outcome State Fault Refusal := .next s.serviceIn

/-- R167. -/
def execHalt (s : State) : Host.Outcome State Fault Refusal := .next s.serviceHalt

/-- R160, R168, R202: the dispatcher. A vector that is none of the five is the fatal UnsupportedTrapVector stop,
info = the instruction word. -/
def execTrap (unused : BitVec 4) (trapvect8 : Byte) (s : State) : Host.Outcome State Fault Refusal :=
  if trapvect8 = Config.vecGetc then .next s.serviceGetc
  else if trapvect8 = Config.vecOut then .next s.serviceOut
  else if trapvect8 = Config.vecPuts then .next s.servicePuts
  else if trapvect8 = Config.vecIn then .next s.serviceIn
  else if trapvect8 = Config.vecHalt then .next s.serviceHalt
  else .next (s.raiseFatal .unsupportedTrapVector (encode (.trap unused trapvect8)))

end Sys2Proof.Machine
end

