-- ==== Sys2Proof/Machine/Step.lean ====
section
/-! DEFINITION. One step of the machine (70_reset_and_hazards.md R238, R239). -/

namespace Sys2Proof.Machine

/-- R239: while Running, one instruction: fetch, increment the PC, decode, execute; or, inside a service, its next
substep (R169). In Halted and in Faulted the core does nothing (R211, R200). -/
def step (s : State) : Host.Outcome State Fault Refusal :=
  match s.run with
  | .halted => .next s
  | .faulted _ _ => .next s
  | .running =>
    match s.service with
    | .none => exec s.instruction s.advancePc
    | .getc => .next s.serviceStep
    | .puts _ => .next s.serviceStep
    | .inPrompt _ _ => .next s.serviceStep
    | .inRead => .next s.serviceStep
    | .inEcho _ => .next s.serviceStep

/-- The state whose very next step fetches and runs the instruction with these bits: its word at the PC, and the core
Running between two instructions. Log 8: it stands for the load and for the host's `run()`. -/
def State.withFetchWord (s : State) (nbits w : Nat) : State :=
  { s with run := .running, service := .none, mem := s.mem.writeWord s.pc (BitVec.ofNat 16 (w % 2 ^ nbits)) }

end Sys2Proof.Machine
end

