-- ==== Sys2Proof/Machine/Boot.lean ====
section
/-! DEFINITION. The host's side of the block: the object file and the loader (20_memory.md R62 to R65), start-up
(70_reset_and_hazards.md R237), `run()` (R238), console input (43_trap.md R161), and what the host sees
(10_state.md R33, 60_exceptions.md R213). No step of the core calls these. -/

namespace Sys2Proof.Machine

/-- R62: the big-endian words of a list of bytes; none if a byte is left over. -/
def wordsOfBytes : List Byte → Option (List Word)
  | [] => some []
  | [_] => none
  | hi :: lo :: rest => (wordsOfBytes rest).map (wordOfBytes hi lo :: ·)

/-- R62: the origin and the words of an object file; none where the file is not admitted (D7). -/
def parseObject (file : List Byte) : Option (Word × List Word) :=
  match wordsOfBytes file with
  | some (origin :: data) => some (origin, data)
  | some [] => none
  | none => none

/-- R62: the object file of an origin and its words. -/
def objectBytes (origin : Word) (data : List Word) : List Byte := (origin :: data).flatMap wordBytes

/-- R63: the image copied from `start` up and recorded as the program start, or the fatal MemoryBounds stop (R203).
DESIGN CHOICE (log 14), safe: on that stop nothing is copied. -/
def State.loadDense (s : State) (data : List Word) (start : Word) : State :=
  if Config.memoryWords - start.toNat < data.length then s.raiseFatal .memoryBounds start
  else { s with mem := s.mem.writeWords start data, programStart := start }

/-- R232: the CPU takes its PC from `get_program_start()`. -/
def State.initPc (s : State) : State := s.setPc s.programStart

/-- R237, steps 1 to 3: memory is created, the object file is loaded, the CPU is constructed. `none` is a file that
cannot be read (R204). A malformed file is refused (R62, D7). -/
def State.launch (p : ResetParams) (file : Option (List Byte)) : Host.Outcome State Fault Refusal :=
  match file with
  | none => .next ((State.resetWith p).raiseFatal .fileOpen 0)
  | some bytes =>
    match parseObject bytes with
    | none => .refused .malformedObject
    | some (origin, data) => .next ((State.resetWith p).loadDense data origin).initPc

/-- R238: the first line of `run()`: a Halted core becomes Running; Faulted is never restarted (D24). The loop after
it is `step`. -/
def State.hostRun (s : State) : State :=
  match s.run with
  | .halted => { s with run := .running }
  | .running => s
  | .faulted _ _ => s

/-- R161: the host supplies bytes; they follow those not yet read. -/
def State.supplyInput (s : State) (bytes : List Byte) : State := { s with cin := s.cin ++ bytes }

/-- R33: the port `running`, the running flag of R30. -/
def State.running (s : State) : Bool :=
  match s.run with
  | .running => true
  | .halted => false
  | .faulted _ _ => false

/-- R33: the port `fault(kind, info)`. -/
def State.faultPort (s : State) : Option (FaultKind × Word) :=
  match s.run with
  | .running => none
  | .halted => none
  | .faulted kind info => some (kind, info)

/-- R213: what the host sees when a run ends. The number of a non-zero code is not given (log 15). -/
inductive ExitStatus where
  | zero
  | nonZero
deriving DecidableEq, Repr

/-- R213: 0 on a normal HALT, non-zero on a fatal stop; a run that goes on has none. -/
def State.exitStatus (s : State) : Option ExitStatus :=
  match s.run with
  | .running => none
  | .halted => some .zero
  | .faulted _ _ => some .nonZero

end Sys2Proof.Machine
end

