-- ==== Sys2Proof/Safety.lean ====
section
/-! DEFINITION. What statements are phrased in: the machine's invariant, what counts as a safe run, and what two states
have in common. -/

namespace Sys2Proof.Machine

/-- R32, R169: the progress that a service can have reached. The prompt bytes still to be written are the end of the
prompt. -/
def Service.legal : Service → Bool
  | .none => true
  | .getc => true
  | .puts _ => true
  | .inPrompt b rest => (b :: rest).isSuffixOf Config.inPrompt
  | .inRead => true
  | .inEcho _ => true

/-- The invariant of the machine: memory is in its canonical form (R50), a service is under way only while the core is
Running (R30, R32), and its progress is one that IN or PUTS can have reached (R169). -/
def State.inv (s : State) : Bool :=
  s.mem.wf && s.service.legal && (s.running || s.service == .none)

/-- A run is safe while the core has not entered the fatal stop (R200). -/
def State.safe (s : State) : Bool := s.faultPort.isNone

/-- R239: `n` steps one after another. -/
def steps : Nat → State → Host.Outcome State Fault Refusal
  | 0, s => .next s
  | n + 1, s =>
    match step s with
    | .next t => steps n t
    | .fault r => .fault r
    | .refused r => .refused r

/-- Every general register but those of `rs` is the same. -/
def sameRegsBut (rs : List RegIdx) (s t : State) : Prop := ∀ r : RegIdx, r ∉ rs → t.readReg r = s.readReg r

/-- Every byte of memory is the same. -/
def sameMemory (s t : State) : Prop := ∀ k : Nat, t.mem.readByte k = s.mem.readByte k

/-- Every byte of memory outside the word at `a` is the same. -/
def sameMemoryBut (a : Word) (s t : State) : Prop :=
  ∀ k : Nat, k ≠ hiByteAddr a → k ≠ loByteAddr a → t.mem.readByte k = s.mem.readByte k

/-- R26: the registers an instruction may write. -/
def destRegs : Instr → List RegIdx
  | .addReg dr _ _ => [dr]
  | .addImm dr _ _ => [dr]
  | .andReg dr _ _ => [dr]
  | .andImm dr _ _ => [dr]
  | .not dr _ => [dr]
  | .ld dr _ => [dr]
  | .ldi dr _ => [dr]
  | .ldr dr _ _ => [dr]
  | .lea dr _ => [dr]
  | .st _ _ => []
  | .sti _ _ => []
  | .str _ _ _ => []
  | .br _ _ _ _ => []
  | .jmp _ => []
  | .ret => []
  | .jsr _ => [7]
  | .jsrr _ => [7]
  | .rti _ => []
  | .trap _ v => if v = Config.vecGetc ∨ v = Config.vecIn then [0] else []
  | .getc => [0]
  | .out => []
  | .puts => []
  | .inChar => [0]
  | .halt => []
  | .reserved _ => []

/-- R26: whether an instruction recomputes the flag in the step that runs it. IN's write of R0 is a later substep. -/
def writesFlag : Instr → Bool
  | .addReg _ _ _ => true
  | .addImm _ _ _ => true
  | .andReg _ _ _ => true
  | .andImm _ _ _ => true
  | .not _ _ => true
  | .ld _ _ => true
  | .ldi _ _ => true
  | .ldr _ _ _ => true
  | .lea _ _ => true
  | .st _ _ => false
  | .sti _ _ => false
  | .str _ _ _ => false
  | .br _ _ _ _ => false
  | .jmp _ => false
  | .ret => false
  | .jsr _ => Config.jsrUpdatesFlags
  | .jsrr _ => Config.jsrUpdatesFlags
  | .rti _ => false
  | .trap _ _ => false
  | .getc => false
  | .out => false
  | .puts => false
  | .inChar => false
  | .halt => false
  | .reserved _ => false

/-- R124 to R126: the address an instruction stores to and the register it stores, in the state its meaning is given
(the PC already incremented). -/
def State.storeOf (s : State) : Instr → Option (Word × RegIdx)
  | .addReg _ _ _ => none
  | .addImm _ _ _ => none
  | .andReg _ _ _ => none
  | .andImm _ _ _ => none
  | .not _ _ => none
  | .ld _ _ => none
  | .ldi _ _ => none
  | .ldr _ _ _ => none
  | .lea _ _ => none
  | .st sr off => some (s.pcRelative off, sr)
  | .sti sr off => some (s.indirect off, sr)
  | .str sr baseR off => some (s.baseOffset baseR off, sr)
  | .br _ _ _ _ => none
  | .jmp _ => none
  | .ret => none
  | .jsr _ => none
  | .jsrr _ => none
  | .rti _ => none
  | .trap _ _ => none
  | .getc => none
  | .out => none
  | .puts => none
  | .inChar => none
  | .halt => none
  | .reserved _ => none

/-- R24 by the signed reading of R10: the flag that a written value gives. -/
def signFlag (v : Word) : Cond := if v.toInt < 0 then .n else if v.toInt = 0 then .z else .p

end Sys2Proof.Machine
end

