-- ==== Sys2Proof/Certificates/Slice0/Obligations.lean ====
section
/-! DEFINITION. The statements about the model, each a proposition and none proved here. A meaning is given the state
whose PC the fetch has incremented (10_state.md R27). -/

open Sys2Proof Sys2Proof.Machine

/-! ### Encoding -/

/-- R76, R83: every well-formed instruction's word decodes to that instruction. -/
def Obligations.DecodeEncodeRoundTrip : Prop :=
  ∀ i : Instr, i.wellFormed = true → decodeWord (encode i) = i

/-- R75, R76, R83: every word decodes to a well-formed instruction, whose own word has the same bits wherever its
format uses a bit. -/
def Obligations.EncodeDecodeKeepsUsedBits : Prop :=
  ∀ w : Word, (decodeWord w).wellFormed = true ∧
    encode (decodeWord w) &&& (decodeWord w).usedBits = w &&& (decodeWord w).usedBits

/-- R75: a word that differs only in bits its format does not use is the same instruction. RTI, the reserved opcode and a
TRAP with an undefined vector are excepted: R76 marks bits of theirs as not used too, but their terms keep the whole word
(`usedBits` is 0xFFFF), because the fatal stop records it as info (R201, R202; DEDUCED, log 12). -/
def Obligations.DontCareBitsDecodeAlike : Prop :=
  ∀ w w' : Word, w' &&& (decodeWord w).usedBits = w &&& (decodeWord w).usedBits → decodeWord w' = decodeWord w

/-- R87: 25 rows, 19 of them primary; every word is covered by exactly one primary row; the row of the instruction a
word decodes to is in the table and covers the word; RET's words are JMP's with BaseR = 7; a word of the TRAP row is in
one of the five service rows or decodes to TRAP itself. -/
def Obligations.OpcodeTablePartitionsTheWords : Prop :=
  opcodeTable.length = 25 ∧ (opcodeTable.filter (·.primary)).length = 19 ∧
  (∀ w : Word, ((opcodeTable.filter (·.primary)).filter (·.covers w)).length = 1) ∧
  (∀ w : Word, (decodeWord w).row ∈ opcodeTable ∧ (decodeWord w).row.covers w = true) ∧
  (∀ w : Word, (Instr.row .ret).covers w = true ↔ (Instr.row (.jmp 0)).covers w = true ∧ fieldSR1 w = 7) ∧
  (∀ w : Word, (Instr.row (.trap 0 0)).covers w = true →
    ((opcodeTable.filter fun r => !r.primary && r.covers w) = [] ↔
      decodeWord w = .trap (field w 8 4) (field w 0 8)))

/-- R84: exactly opcode 0xD, opcode 0x8 and a TRAP with an undefined vector stop the core, each with its kind; BR with no
condition bit is a valid instruction and never branches. -/
def Obligations.InvalidEncodingsAreExactlyThese : Prop :=
  (∀ (w : Word) (kind : FaultKind) (s : State), s.run = .running →
    ((∃ t info, exec (decodeWord w) s = .next t ∧ t.run = .faulted kind info) ↔
      (kind = .invalidOpcode ∧ (field w 12 4 = 0xD ∨ field w 12 4 = 0x8)) ∨
      (kind = .unsupportedTrapVector ∧ field w 12 4 = 0xF ∧
        field w 0 8 ∉ [(0x20 : Byte), 0x21, 0x22, 0x23, 0x25]))) ∧
  ∀ (off : BitVec 9) (s : State), exec (.br false false false off) s = .next s

/-- R12: sign extension keeps the two's-complement value and is the source's formula; zero extension keeps the value. -/
def Obligations.SignExtensionIsTwosComplement : Prop :=
  (∀ (n : Nat) (v : BitVec n), 0 < n → n ≤ 16 →
    (sext v).toInt = v.toInt ∧
    sext v = BitVec.ofNat 16 ((v.toNat ^^^ 2 ^ (n - 1)) + 65536 - 2 ^ (n - 1))) ∧
  (∀ (n : Nat) (v : BitVec n), n ≤ 16 → (v.setWidth 16).toNat = v.toNat) ∧
  ∀ b : Byte, zextByte b = b.setWidth 16

/-- Words written out from the encodings of 95_test_vectors.md decode to the instructions they stand for. -/
def Obligations.SampleWordsDecode : Prop :=
  decodeWord 0x1283 = .addReg 1 2 3 ∧ decodeWord 0x14BF = .addImm 2 2 (-1) ∧ decodeWord 0x2408 = .ld 2 8 ∧
  decodeWord 0xE00A = .lea 0 10 ∧ decodeWord 0x7DBF = .str 6 6 (-1) ∧ decodeWord 0x03FD = .br false false true (-3) ∧
  decodeWord 0x4C00 = .jsr (-1024) ∧ decodeWord 0x41C0 = .jsrr 7 ∧ decodeWord 0xFF25 = .halt

/-! ### The ALU and the flag -/

/-- R105. -/
def Obligations.AluComputesItsThreeOperations : Prop :=
  ∀ a b : Word, (alu .add a b).toNat = (a.toNat + b.toNat) % 65536 ∧ (alu .and a b).toNat = a.toNat &&& b.toNat ∧
    (alu .not a b).toNat = 65535 - a.toNat

/-- R24: the flag of a written value, by its signed reading (R10). -/
def Obligations.FlagIsTheSignOfTheValue : Prop :=
  ∀ v : Word, (setCC v = .z ↔ v = 0) ∧ (setCC v = .n ↔ v.toInt < 0) ∧ (setCC v = .p ↔ 0 < v.toInt) ∧
    (setCC v = .n ↔ v.getLsbD 15 = true)

/-! ### Operate -/

/-- R100. -/
def Obligations.AddRegisterForm : Prop :=
  (∀ w : Word, w &&& 0xF020 = 0x1000 → decodeWord w = .addReg (fieldDR w) (fieldSR1 w) (fieldSR2 w)) ∧
  encode (.addReg 1 2 3) = 0x1283 ∧
  ∀ (dr sr1 sr2 : RegIdx) (s : State), exec (.addReg dr sr1 sr2) s =
    .next { s with gpr := s.gpr.set dr (s.gpr[sr1] + s.gpr[sr2]), cond := signFlag (s.gpr[sr1] + s.gpr[sr2]) }

/-- R101. -/
def Obligations.AddImmediateForm : Prop :=
  (∀ w : Word, w &&& 0xF020 = 0x1020 → decodeWord w = .addImm (fieldDR w) (fieldSR1 w) (field w 0 5)) ∧
  encode (.addImm 2 2 (-1)) = 0x14BF ∧
  ∀ (dr sr1 : RegIdx) (imm5 : BitVec 5) (s : State), exec (.addImm dr sr1 imm5) s =
    .next { s with
      gpr := s.gpr.set dr (s.gpr[sr1] + imm5.signExtend 16), cond := signFlag (s.gpr[sr1] + imm5.signExtend 16) }

/-- R102. -/
def Obligations.AndRegisterForm : Prop :=
  (∀ w : Word, w &&& 0xF020 = 0x5000 → decodeWord w = .andReg (fieldDR w) (fieldSR1 w) (fieldSR2 w)) ∧
  encode (.andReg 2 3 4) = 0x54C4 ∧
  ∀ (dr sr1 sr2 : RegIdx) (s : State), exec (.andReg dr sr1 sr2) s =
    .next { s with gpr := s.gpr.set dr (s.gpr[sr1] &&& s.gpr[sr2]), cond := signFlag (s.gpr[sr1] &&& s.gpr[sr2]) }

/-- R103. -/
def Obligations.AndImmediateForm : Prop :=
  (∀ w : Word, w &&& 0xF020 = 0x5020 → decodeWord w = .andImm (fieldDR w) (fieldSR1 w) (field w 0 5)) ∧
  encode (.andImm 0 0 0) = 0x5020 ∧
  ∀ (dr sr1 : RegIdx) (imm5 : BitVec 5) (s : State), exec (.andImm dr sr1 imm5) s =
    .next { s with
      gpr := s.gpr.set dr (s.gpr[sr1] &&& imm5.signExtend 16), cond := signFlag (s.gpr[sr1] &&& imm5.signExtend 16) }

/-- R104; an encoder writes ones in the bits 5:0 that the format does not use. -/
def Obligations.NotComplements : Prop :=
  (∀ w : Word, w &&& 0xF000 = 0x9000 → decodeWord w = .not (fieldDR w) (fieldSR1 w)) ∧
  encode (.not 0 1) = 0x907F ∧ (∀ dr sr1 : RegIdx, field (encode (.not dr sr1)) 0 6 = 0b111111) ∧
  ∀ (dr sr1 : RegIdx) (s : State), exec (.not dr sr1) s =
    .next { s with gpr := s.gpr.set dr (~~~s.gpr[sr1]), cond := signFlag (~~~s.gpr[sr1]) }

/-! ### Data movement -/

/-- R120, with the address in terms of the instruction's own address. -/
def Obligations.LoadPcRelative : Prop :=
  (∀ w : Word, w &&& 0xF000 = 0x2000 → decodeWord w = .ld (fieldDR w) (field w 0 9)) ∧
  encode (.ld 2 8) = 0x2408 ∧
  (∀ (off : BitVec 9) (s : State), s.advancePc.pcRelative off = s.pc + 1 + off.signExtend 16) ∧
  ∀ (dr : RegIdx) (off : BitVec 9) (s : State), exec (.ld dr off) s =
    .next { s with
      gpr := s.gpr.set dr (s.mem.readWord (s.pc + off.signExtend 16)),
      cond := signFlag (s.mem.readWord (s.pc + off.signExtend 16)) }

/-- R121. -/
def Obligations.LoadIndirect : Prop :=
  (∀ w : Word, w &&& 0xF000 = 0xA000 → decodeWord w = .ldi (fieldDR w) (field w 0 9)) ∧
  encode (.ldi 1 3) = 0xA203 ∧
  ∀ (dr : RegIdx) (off : BitVec 9) (s : State), exec (.ldi dr off) s =
    .next { s with
      gpr := s.gpr.set dr (s.mem.readWord (s.mem.readWord (s.pc + off.signExtend 16))),
      cond := signFlag (s.mem.readWord (s.mem.readWord (s.pc + off.signExtend 16))) }

/-- R122. -/
def Obligations.LoadBaseOffset : Prop :=
  (∀ w : Word, w &&& 0xF000 = 0x6000 → decodeWord w = .ldr (fieldDR w) (fieldSR1 w) (field w 0 6)) ∧
  encode (.ldr 0 6 0) = 0x6180 ∧
  ∀ (dr baseR : RegIdx) (off : BitVec 6) (s : State), exec (.ldr dr baseR off) s =
    .next { s with
      gpr := s.gpr.set dr (s.mem.readWord (s.gpr[baseR] + off.signExtend 16)),
      cond := signFlag (s.mem.readWord (s.gpr[baseR] + off.signExtend 16)) }

/-- R123. -/
def Obligations.LoadEffectiveAddress : Prop :=
  (∀ w : Word, w &&& 0xF000 = 0xE000 → decodeWord w = .lea (fieldDR w) (field w 0 9)) ∧
  encode (.lea 0 10) = 0xE00A ∧
  ∀ (dr : RegIdx) (off : BitVec 9) (s : State), exec (.lea dr off) s =
    .next { s with
      gpr := s.gpr.set dr (s.pc + off.signExtend 16), cond := signFlag (s.pc + off.signExtend 16) }

/-- R124: the next state, and the store seen byte by byte. -/
def Obligations.StorePcRelative : Prop :=
  (∀ w : Word, w &&& 0xF000 = 0x3000 → decodeWord w = .st (fieldDR w) (field w 0 9)) ∧
  encode (.st 0 3) = 0x3003 ∧
  ∀ (sr : RegIdx) (off : BitVec 9) (s : State), ∃ t, exec (.st sr off) s = .next t ∧
    t = { s with mem := t.mem } ∧ t.mem.readWord (s.pc + off.signExtend 16) = s.gpr[sr] ∧
    sameMemoryBut (s.pc + off.signExtend 16) s t

/-- R125: the pointer is read before the write. -/
def Obligations.StoreIndirect : Prop :=
  (∀ w : Word, w &&& 0xF000 = 0xB000 → decodeWord w = .sti (fieldDR w) (field w 0 9)) ∧
  encode (.sti 1 1) = 0xB201 ∧
  ∀ (sr : RegIdx) (off : BitVec 9) (s : State), ∃ t, exec (.sti sr off) s = .next t ∧
    t = { s with mem := t.mem } ∧ t.mem.readWord (s.mem.readWord (s.pc + off.signExtend 16)) = s.gpr[sr] ∧
    sameMemoryBut (s.mem.readWord (s.pc + off.signExtend 16)) s t

/-- R126. -/
def Obligations.StoreBaseOffset : Prop :=
  (∀ w : Word, w &&& 0xF000 = 0x7000 → decodeWord w = .str (fieldDR w) (fieldSR1 w) (field w 0 6)) ∧
  encode (.str 0 6 1) = 0x7181 ∧
  ∀ (sr baseR : RegIdx) (off : BitVec 6) (s : State), ∃ t, exec (.str sr baseR off) s = .next t ∧
    t = { s with mem := t.mem } ∧ t.mem.readWord (s.gpr[baseR] + off.signExtend 16) = s.gpr[sr] ∧
    sameMemoryBut (s.gpr[baseR] + off.signExtend 16) s t

/-! ### Control -/

/-- R140, R141. -/
def Obligations.BranchOnCondition : Prop :=
  (∀ w : Word, w &&& 0xF000 = 0x0000 →
    decodeWord w = .br (w.getLsbD 11) (w.getLsbD 10) (w.getLsbD 9) (field w 0 9)) ∧
  encode (.br false false true (-3)) = 0x03FD ∧
  ∀ (n z p : Bool) (off : BitVec 9) (s : State), exec (.br n z p off) s =
    .next (if (n = true ∧ s.cond = .n) ∨ (z = true ∧ s.cond = .z) ∨ (p = true ∧ s.cond = .p)
      then { s with pc := s.pc + off.signExtend 16 } else s)

/-- R142, RET among its words. -/
def Obligations.JumpThroughRegister : Prop :=
  (∀ (w : Word) (s : State), w &&& 0xF000 = 0xC000 →
    exec (decodeWord w) s = .next { s with pc := s.gpr[fieldSR1 w] }) ∧
  encode (.jmp 5) = 0xC140 ∧ encode .ret = 0xC1C0 ∧ decodeWord 0xC1C0 = .ret ∧
  (∀ (baseR : RegIdx) (s : State), exec (.jmp baseR) s = .next { s with pc := s.gpr[baseR] }) ∧
  ∀ s : State, exec .ret s = .next { s with pc := s.gpr[(7 : RegIdx)] }

/-- R143. -/
def Obligations.CallPcRelative : Prop :=
  (∀ w : Word, w &&& 0xF800 = 0x4800 → decodeWord w = .jsr (field w 0 11)) ∧
  encode (.jsr 1) = 0x4801 ∧
  ∀ (off : BitVec 11) (s : State), exec (.jsr off) s =
    .next { s with
      gpr := s.gpr.set 7 s.pc, cond := if Config.jsrUpdatesFlags then signFlag s.pc else s.cond,
      pc := s.pc + off.signExtend 16 }

/-- R144: the base is read after R7 is written. -/
def Obligations.CallThroughRegister : Prop :=
  (∀ w : Word, w &&& 0xF800 = 0x4000 → decodeWord w = .jsrr (fieldSR1 w)) ∧
  encode (.jsrr 3) = 0x40C0 ∧
  ∀ (baseR : RegIdx) (s : State), exec (.jsrr baseR) s =
    .next { s with
      gpr := s.gpr.set 7 s.pc, cond := if Config.jsrUpdatesFlags then signFlag s.pc else s.cond,
      pc := if baseR = 7 then s.pc else s.gpr[baseR] }

/-- R146. -/
def Obligations.RtiStopsWithInvalidOpcode : Prop :=
  (∀ (w : Word) (s : State), w &&& 0xF000 = 0x8000 →
    decodeWord w = .rti (field w 0 12) ∧
    exec (decodeWord w) s = .next { s with run := .faulted .invalidOpcode w }) ∧
  ∀ (unused : BitVec 12) (s : State), exec (.rti unused) s =
    .next { s with run := .faulted .invalidOpcode (0x8#4 ++ unused) }

/-- R201: opcode 0xD, opcode 0x8 beside it; the kind's label is 1; the PC is the incremented one. -/
def Obligations.ReservedOpcodeStops : Prop :=
  FaultKind.code .invalidOpcode = 1 ∧
  (∀ (w : Word) (s : State), w &&& 0xF000 = 0xD000 →
    decodeWord w = .reserved (field w 0 12) ∧
    exec (decodeWord w) s = .next { s with run := .faulted .invalidOpcode w }) ∧
  (∀ s : State, s.run = .running → s.service = .none → field s.fetch 12 4 = 0xD ∨ field s.fetch 12 4 = 0x8 →
    step s = .next { s with pc := s.pc + 1, run := .faulted .invalidOpcode s.fetch }) ∧
  ∀ (unused : BitVec 12) (s : State), exec (.reserved unused) s =
    .next { s with run := .faulted .invalidOpcode (0xD#4 ++ unused) }

/-! ### Trap -/

/-- R160: the dispatcher tests w[7:0] alone. The last clauses say what a TRAP term itself does. -/
def Obligations.TrapDispatchesOnTheVector : Prop :=
  (∀ (w : Word) (s : State), w &&& 0xF000 = 0xF000 →
    exec (decodeWord w) s =
      if field w 0 8 = 0x20 then exec .getc s
      else if field w 0 8 = 0x21 then exec .out s
      else if field w 0 8 = 0x22 then exec .puts s
      else if field w 0 8 = 0x23 then exec .inChar s
      else if field w 0 8 = 0x25 then exec .halt s
      else .next { s with run := .faulted .unsupportedTrapVector w }) ∧
  (∀ (u : BitVec 4) (s : State), exec (.trap u 0x20) s = exec .getc s ∧ exec (.trap u 0x22) s = exec .puts s ∧
    exec (.trap u 0x23) s = exec .inChar s) ∧
  (∀ (u : BitVec 4) (s : State),
    exec (.trap u 0x21) s = .next { s with cout := s.cout ++ [s.gpr[(0 : RegIdx)].setWidth 8] }) ∧
  ∀ (u : BitVec 4) (s : State), exec (.trap u 0x25) s = .next { s with run := .halted }

/-- R202, R168. -/
def Obligations.UnsupportedVectorStops : Prop :=
  FaultKind.code .unsupportedTrapVector = 2 ∧
  (∀ (w : Word) (s : State), w &&& 0xF000 = 0xF000 → field w 0 8 ∉ [(0x20 : Byte), 0x21, 0x22, 0x23, 0x25] →
    exec (decodeWord w) s = .next { s with run := .faulted .unsupportedTrapVector w }) ∧
  (∀ s : State, s.run = .running → s.service = .none → field s.fetch 12 4 = 0xF →
    field s.fetch 0 8 ∉ [(0x20 : Byte), 0x21, 0x22, 0x23, 0x25] →
    step s = .next { s with pc := s.pc + 1, run := .faulted .unsupportedTrapVector s.fetch }) ∧
  ∀ (u : BitVec 4) (v : Byte) (s : State), v ∉ [(0x20 : Byte), 0x21, 0x22, 0x23, 0x25] →
    exec (.trap u v) s = .next { s with run := .faulted .unsupportedTrapVector (0xF#4 ++ u ++ v) }

/-- R163, and, with no byte available, the wait as the model holds it (DEDUCED, log 10). -/
def Obligations.GetcReadsOneCharacter : Prop :=
  (∀ w : Word, w &&& 0xF0FF = 0xF020 → decodeWord w = .getc) ∧ encode .getc = 0xF020 ∧
  (∀ (s : State) (b : Byte) (rest : List Byte), s.cin = b :: rest →
    exec .getc s = .next { s with gpr := s.gpr.set 0 (b.setWidth 16), cin := rest, service := .none }) ∧
  ∀ s : State, s.cin = [] → s.run = .running →
    exec .getc s = .next { s with service := .getc } ∧
    ∀ n : Nat, steps n { s with service := .getc } = .next { s with service := .getc }

/-- R164. -/
def Obligations.OutWritesTheLowByte : Prop :=
  (∀ w : Word, w &&& 0xF0FF = 0xF021 → decodeWord w = .out) ∧ encode .out = 0xF021 ∧
  ∀ s : State, exec .out s = .next { s with cout := s.cout ++ [s.gpr[(0 : RegIdx)].setWidth 8] }

/-- R165: PUTS over a terminated string, in as many further substeps as the string has characters (R169). That a step of
the model is one substep is DEDUCED (log 9). -/
def Obligations.PutsWritesTheString : Prop :=
  (∀ w : Word, w &&& 0xF0FF = 0xF022 → decodeWord w = .puts) ∧ encode .puts = 0xF022 ∧
  ∀ (s : State) (text : List Byte), s.run = .running →
    (∀ (k : Nat) (h : k < text.length),
      (s.mem.readWord (s.gpr[(0 : RegIdx)] + BitVec.ofNat 16 k)).setWidth 8 = text[k] ∧ text[k] ≠ 0) →
    (s.mem.readWord (s.gpr[(0 : RegIdx)] + BitVec.ofNat 16 text.length)).setWidth 8 = (0 : Byte) →
    ∃ t, exec .puts s = .next t ∧
      steps text.length t = .next { s with cout := s.cout ++ text, service := .none }

/-- R165: with no terminator PUTS never ends and writes one byte in every step (a step is one substep: DEDUCED, log 9). -/
def Obligations.PutsWithoutTerminatorNeverEnds : Prop :=
  ∀ s : State, s.run = .running → (∀ a : Word, (s.mem.readWord a).setWidth 8 ≠ (0 : Byte)) →
    ∃ t, exec .puts s = .next t ∧
      ∀ n : Nat, ∃ u, steps n t = .next u ∧ u.service ≠ .none ∧ u.run = .running ∧
        u.cout.length = s.cout.length + n + 1

/-- R166: the prompt, the read, the echo, the write of R0, in that order and in as many substeps as R169 says (a step is
one substep: DEDUCED, log 9). Nothing is assumed of the prompt (log 7) or of the flag's update (log 6). -/
def Obligations.InPromptsReadsAndEchoes : Prop :=
  (∀ w : Word, w &&& 0xF0FF = 0xF023 → decodeWord w = .inChar) ∧ encode .inChar = 0xF023 ∧
  ∀ (s : State) (b : Byte) (rest : List Byte), s.run = .running → s.cin = b :: rest →
    ∃ t, exec .inChar s = .next t ∧
      steps (Config.inPrompt.length + 1) t =
        .next { s with
          gpr := s.gpr.set 0 (b.setWidth 16),
          cond := if Config.inUpdatesFlags then signFlag (b.setWidth 16) else s.cond,
          cin := rest, cout := s.cout ++ Config.inPrompt ++ [b], service := .none }

/-- R166: with no input IN waits for ever, after the prompt has been written (log 9, 10: DEDUCED). -/
def Obligations.InWithoutInputWaitsAfterThePrompt : Prop :=
  ∀ s : State, s.run = .running → s.cin = [] →
    ∃ t, exec .inChar s = .next t ∧
      ∀ n : Nat, Config.inPrompt.length ≤ n →
        steps n t = .next { s with cout := s.cout ++ Config.inPrompt, service := .inRead }

/-- R167: the state, the exit code the host sees, and no further instruction fetched. DEDUCED (log 11): the model's step
of a Halted core answers the same state. -/
def Obligations.HaltStopsTheRun : Prop :=
  (∀ w : Word, w &&& 0xF0FF = 0xF025 → decodeWord w = .halt) ∧ encode .halt = 0xF025 ∧
  ∀ s : State, exec .halt s = .next { s with run := .halted } ∧
    State.exitStatus { s with run := .halted } = some .zero ∧ State.running { s with run := .halted } = false ∧
    ∀ n : Nat, steps n { s with run := .halted } = .next { s with run := .halted }

/-! ### The step -/

/-- R239: between two instructions of a Running core a step fetches the word at the PC, increments the PC and runs the
decoded instruction. Inside a service a step is one substep (DEDUCED, log 9). -/
def Obligations.StepRunsTheDecodedInstruction : Prop :=
  ∀ s : State, s.run = .running → s.service = .none →
    step s = exec (decodeWord (s.mem.readWord s.pc)) { s with pc := s.pc + 1 }

/-- R161, R211: a read that finds no byte waits, and goes on when the host supplies one. DEDUCED (log 10): the wait is a
step that answers the same state. -/
def Obligations.BlockedReadWaitsAndResumes : Prop :=
  (∀ s : State, s.run = .running → s.cin = [] → s.service = .getc →
    step s = .next s ∧ ∀ b : Byte, step (s.supplyInput [b]) =
      .next { s with gpr := s.gpr.set 0 (b.setWidth 16), service := .none }) ∧
  ∀ s : State, s.run = .running → s.cin = [] → s.service = .inRead →
    step s = .next s ∧ ∀ b : Byte, step (s.supplyInput [b]) = .next { s with service := .inEcho b }

/-- R83, R200, R239: the core never stops with a fault or a refusal; every fatal condition is a state. DEDUCED (log 11):
where the spec says that the core takes no step, the model answers the same state. -/
def Obligations.StepAlwaysAnswersNext : Prop := ∀ s : State, ∃ t, step s = .next t

/-- R200, R211, R238, D24: Halted stays until the host calls `run()`; Faulted stays for ever, and `run()` does not
restart it. DEDUCED (log 11): the model's step there answers the same state. -/
def Obligations.StoppedCoreStaysStopped : Prop :=
  (∀ (s : State) (n : Nat), s.run = .halted →
    steps n s = .next s ∧ s.hostRun = { s with run := .running } ∧ s.exitStatus = some .zero) ∧
  ∀ (s : State) (kind : FaultKind) (info : Word) (n : Nat), s.run = .faulted kind info →
    steps n s = .next s ∧ steps n s.hostRun = .next s ∧ s.exitStatus = some .nonZero

/-- R30, R242: a Running core enters Halted only by HALT, which changes nothing else but the PC's increment. -/
def Obligations.OnlyHaltEntersHalted : Prop :=
  ∀ s t : State, s.run = .running → step s = .next t → t.run = .halted →
    s.service = .none ∧ s.mem.readWord s.pc &&& 0xF0FF = 0xF025 ∧ t = { s with pc := s.pc + 1, run := .halted }

/-- R200, R201, R202, R207: a fatal stop of a Running core changes nothing but the PC's increment and the run state, and
is one of the two run-time conditions, recorded with the fetched word. -/
def Obligations.FatalStopIsPrecise : Prop :=
  ∀ (s t : State) (kind : FaultKind) (info : Word), s.run = .running → step s = .next t →
    t.run = .faulted kind info →
    s.service = .none ∧ info = s.mem.readWord s.pc ∧ t = { s with pc := s.pc + 1, run := .faulted kind info } ∧
    ((kind = .invalidOpcode ∧ (field info 12 4 = 0x8 ∨ field info 12 4 = 0xD)) ∨
     (kind = .unsupportedTrapVector ∧ field info 12 4 = 0xF ∧
       field info 0 8 ∉ [(0x20 : Byte), 0x21, 0x22, 0x23, 0x25]))

/-- R52, R56, R127: memory changes only by ST, STI and STR, and there only in the stored word, which becomes the stored
register. The address is the one `storeOf` computes in the state after the PC's increment. -/
def Obligations.OnlyStoresWriteMemory : Prop :=
  (∀ (i : Instr) (s t : State), exec i s = .next t →
    (s.storeOf i = none → sameMemory s t) ∧
    ∀ a sr, s.storeOf i = some (a, sr) → t.mem.readWord a = s.readReg sr ∧ sameMemoryBut a s t) ∧
  ∀ s t : State, step s = .next t →
    (s.run ≠ .running ∨ s.service ≠ .none ∨ s.advancePc.storeOf s.instruction = none → sameMemory s t) ∧
    ∀ a sr, s.run = .running → s.service = .none → s.advancePc.storeOf s.instruction = some (a, sr) →
      t.mem.readWord a = s.readReg sr ∧ sameMemoryBut a s t

/-- R20, R26, R127: an instruction changes no register but its destination; a substep none but R0; and the program start
never changes. -/
def Obligations.OnlyDestinationRegistersChange : Prop :=
  (∀ (i : Instr) (s t : State), exec i s = .next t →
    sameRegsBut (destRegs i) s t ∧ t.programStart = s.programStart) ∧
  ∀ s t : State, step s = .next t →
    t.programStart = s.programStart ∧
    (s.run ≠ .running → t = s) ∧
    (s.run = .running → s.service = .none → sameRegsBut (destRegs s.instruction) s t) ∧
    (s.service ≠ .none → sameRegsBut [0] s t)

/-- R22, R26: the flag changes only where R26's table says so, and is then the flag of the register written. That the
step which begins IN leaves the flag is the model's (DEDUCED, log 9): IN's write of R0 is its last substep, a later step,
and there the flag follows IN_UPDATES_FLAGS (log 6). -/
def Obligations.FlagFollowsItsTable : Prop :=
  (∀ (i : Instr) (s t : State), exec i s = .next t →
    (writesFlag i = false → t.cond = s.cond) ∧
    (writesFlag i = true → ∃ d, destRegs i = [d] ∧ t.cond = signFlag (t.readReg d))) ∧
  ∀ s t : State, s.service ≠ .none → step s = .next t →
    (t.cond = s.cond ∨
      (Config.inUpdatesFlags = true ∧ (∃ b, s.service = .inEcho b) ∧ t.cond = signFlag (t.readReg 0))) ∧
    (s.run = .running → ∀ b, s.service = .inEcho b →
      t.cond = if Config.inUpdatesFlags then signFlag (t.readReg 0) else s.cond)

/-- R27, R28, R162: a step of a Running core leaves the PC alone inside a service; between instructions it adds 1, and
only a branch, a jump or a call sets it otherwise. -/
def Obligations.PcChangesOnlyInItsThreeWays : Prop :=
  ∀ s t : State, s.run = .running → step s = .next t →
    (s.service ≠ .none → t.pc = s.pc) ∧
    (s.service = .none →
      t.pc = s.pc + 1 ∨
      (∃ n z p off, s.instruction = .br n z p off ∧ t.pc = s.pc + 1 + off.signExtend 16) ∨
      (∃ off, s.instruction = .jsr off ∧ t.pc = s.pc + 1 + off.signExtend 16) ∨
      (∃ r, s.instruction = .jmp r ∧ t.pc = s.readReg r) ∨
      (s.instruction = .ret ∧ t.pc = s.readReg 7) ∨
      (∃ r, s.instruction = .jsrr r ∧ r ≠ 7 ∧ t.pc = s.readReg r))

/-- R53, R161, with one substep of PUTS and IN in a step of the model (DEDUCED, log 9; the spec's step of such an
instruction has several console events, R169, R239): a step takes at most the next input byte and appends at most one output byte, and between instructions
only GETC, OUT, PUTS and IN touch the console at all. -/
def Obligations.OnlyTrapServicesTouchTheConsole : Prop :=
  ∀ s t : State, step s = .next t →
    ∃ taken written : List Byte, s.cin = taken ++ t.cin ∧ t.cout = s.cout ++ written ∧
      taken.length ≤ 1 ∧ written.length ≤ 1 ∧
      (s.service = .none → taken ≠ [] ∨ written ≠ [] →
        s.run = .running ∧
        (s.instruction = .getc ∨ s.instruction = .out ∨ s.instruction = .puts ∨ s.instruction = .inChar))

/-- R26: BR is the only reader of the flag: any other step from states that differ in the flag alone gives states that
differ in the flag alone. -/
def Obligations.OnlyBranchReadsTheFlag : Prop :=
  ∀ (s t : State) (c : Cond), step s = .next t →
    s.service ≠ .none ∨ (∀ n z p off, s.instruction ≠ .br n z p off) →
    ∃ c', step { s with cond := c } = .next { t with cond := c' }

/-- R161, R235: the input not yet read bears on no step but one that reads it. -/
def Obligations.UnreadInputBearsOnNoOtherStep : Prop :=
  ∀ (s t : State) (bytes : List Byte), step s = .next t →
    s.service ≠ .getc → s.service ≠ .inRead →
    (s.service = .none → s.instruction ≠ .getc ∧ s.instruction ≠ .inChar) →
    step { s with cin := bytes } = .next { t with cin := bytes }

/-- R61: the word a store has put at the next address is the instruction the next step runs. -/
def Obligations.StoredWordIsTheNextInstruction : Prop :=
  ∀ (s : State) (sr : RegIdx), s.run = .running → s.service = .none →
    s.advancePc.storeOf s.instruction = some (s.pc + 1, sr) →
    ∃ t, step s = .next t ∧ t.pc = s.pc + 1 ∧
      step t = exec (decodeWord (s.readReg sr)) { t with pc := s.pc + 2 }

/-! ### The invariant -/

/-- R30, R32, R50, R169: every step keeps memory canonical, a service only while Running, and a legal progress. -/
def Obligations.StepKeepsTheInvariant : Prop :=
  ∀ s t : State, s.inv = true → step s = .next t → t.inv = true

/-- Reset meets the invariant, with every parameter whose memory is canonical. -/
def Obligations.ResetMeetsTheInvariant : Prop :=
  State.reset.inv = true ∧ ∀ p : ResetParams, p.mem.wf = true → (State.resetWith p).inv = true

/-- R62 to R65, R161, R237, R238: nothing the host or the loader does breaks the invariant. -/
def Obligations.HostKeepsTheInvariant : Prop :=
  (∀ (p : ResetParams) (file : Option (List Byte)) (t : State), p.mem.wf = true →
    State.launch p file = .next t → t.inv = true) ∧
  ∀ (s : State) (bytes : List Byte) (nbits w : Nat), s.inv = true →
    s.hostRun.inv = true ∧ (s.supplyInput bytes).inv = true ∧ (s.withFetchWord nbits w).inv = true

/-! ### Memory, reset and loading -/

/-- R50: two canonical memories that hold the same words are the same memory. The canonical form is the model's (log 1, 2:
DESIGN CHOICE). -/
def Obligations.CanonicalMemoriesAreExtensional : Prop :=
  ∀ m m' : Memory, m.wf = true → m'.wf = true → (∀ a : Word, m.readWord a = m'.readWord a) → m = m'

/-- R8, R50: every contents of the 65,536 words, so every RESET_MEM, is a canonical memory (log 1, 2). -/
def Obligations.EveryContentsIsAMemory : Prop :=
  ∀ f : Word → Word, ∃ m : Memory, m.wf = true ∧ ∀ a : Word, m.readWord a = f a

/-- R62: the bytes of an admitted object file are the origin and the words, big-endian, and exactly the files of at least
two bytes and of even length are admitted (D7). -/
def Obligations.ObjectFileIsBigEndianWords : Prop :=
  (∀ file : List Byte, parseObject file = none ↔ file.length < 2 ∨ file.length % 2 = 1) ∧
  (∀ (file : List Byte) (origin : Word) (data : List Word), parseObject file = some (origin, data) →
    file.length = 2 * data.length + 2 ∧
    origin.toNat = (file.getD 0 0).toNat * 256 + (file.getD 1 0).toNat ∧
    ∀ (k : Nat) (h : k < data.length),
      data[k].toNat = (file.getD (2 + 2 * k) 0).toNat * 256 + (file.getD (3 + 2 * k) 0).toNat) ∧
  ∀ (origin : Word) (data : List Word), parseObject (objectBytes origin data) = some (origin, data)

/-- R230 to R234: what a launch leaves, for every value of the parameters, every origin and every image that fits; and
the PC where nothing is loaded. -/
def Obligations.LaunchLeavesTheResetState : Prop :=
  (∀ (p : ResetParams) (origin : Word) (data : List Word), data.length ≤ 65536 - origin.toNat →
    ∃ t, State.launch p (some (objectBytes origin data)) = .next t ∧
      t.gpr = p.gpr ∧ t.cond = p.cond ∧ t.pc = origin ∧ t.programStart = origin ∧ t.run = .halted ∧
      t.cout = [] ∧
      (∀ (k : Nat) (h : k < data.length), t.mem.readWord (origin + BitVec.ofNat 16 k) = data[k]) ∧
      ∀ a : Word, (∀ k : Nat, k < data.length → a ≠ origin + BitVec.ofNat 16 k) →
        t.mem.readWord a = p.mem.readWord a) ∧
  (∀ p : ResetParams, (State.resetWith p).pc = p.origin ∧ (State.resetWith p).programStart = p.origin) ∧
  State.reset.pc = 0x3000

/-- R203, R204, D7: a launch that fails never runs, and the host sees a non-zero exit: the fatal stops FileOpen and
MemoryBounds with what they record, and the refusal of a malformed file. -/
def Obligations.FailedLaunchNeverRuns : Prop :=
  FaultKind.code .memoryBounds = 3 ∧ FaultKind.code .fileOpen = 4 ∧
  (∀ p : ResetParams, ∃ t, State.launch p none = .next t ∧ t.run = .faulted .fileOpen 0 ∧
    t.hostRun.running = false ∧ t.exitStatus = some .nonZero) ∧
  (∀ (p : ResetParams) (origin : Word) (data : List Word), 65536 - origin.toNat < data.length →
    ∃ t, State.launch p (some (objectBytes origin data)) = .next t ∧ t.run = .faulted .memoryBounds origin ∧
      t.hostRun.running = false ∧ t.exitStatus = some .nonZero) ∧
  ∀ (p : ResetParams) (bytes : List Byte), bytes.length < 2 ∨ bytes.length % 2 = 1 →
    State.launch p (some bytes) = .refused .malformedObject

/-- R238, the first line of `run()`. -/
def Obligations.HostRunStartsOnlyAHaltedCore : Prop :=
  ∀ s : State, (s.run = .halted → s.hostRun = { s with run := .running }) ∧ (s.run ≠ .halted → s.hostRun = s)

/-- The model's own choice of the values that the spec leaves open at reset (log 2, 3, 4, 13): every register 0x0000, the
flag Z, every word of memory 0x0000, no input; with R233 and R235, Halted and no output. -/
def Obligations.ResetHoldsTheNamedValues : Prop :=
  (∀ r : RegIdx, State.reset.readReg r = 0) ∧ State.reset.cond = .z ∧ (∀ a : Word, State.reset.mem.readWord a = 0) ∧
  State.reset.cin = [] ∧ State.reset.cout = [] ∧ State.reset.run = .halted ∧ State.reset.service = .none
end

