-- ==== Sys2Proof/Laws/State.lean ====
section
/-! SUPPORT. What each update of the state does to each field, each true by unfolding, so that no later proof unfolds
a record update. -/

namespace Sys2Proof.Machine

/-! ### `State.memWrite` -/

@[simp] theorem State.memWrite_gpr (s : State) (a v : Word) :
    (s.memWrite a v).gpr = s.gpr := rfl
@[simp] theorem State.memWrite_cond (s : State) (a v : Word) :
    (s.memWrite a v).cond = s.cond := rfl
@[simp] theorem State.memWrite_pc (s : State) (a v : Word) :
    (s.memWrite a v).pc = s.pc := rfl
@[simp] theorem State.memWrite_run (s : State) (a v : Word) :
    (s.memWrite a v).run = s.run := rfl
@[simp] theorem State.memWrite_service (s : State) (a v : Word) :
    (s.memWrite a v).service = s.service := rfl
@[simp] theorem State.memWrite_mem (s : State) (a v : Word) :
    (s.memWrite a v).mem = s.mem.writeWord a v := rfl
@[simp] theorem State.memWrite_programStart (s : State) (a v : Word) :
    (s.memWrite a v).programStart = s.programStart := rfl
@[simp] theorem State.memWrite_cin (s : State) (a v : Word) :
    (s.memWrite a v).cin = s.cin := rfl
@[simp] theorem State.memWrite_cout (s : State) (a v : Word) :
    (s.memWrite a v).cout = s.cout := rfl
@[simp] theorem State.memWrite_readReg (s : State) (a v : Word) (r : RegIdx) :
    (s.memWrite a v).readReg r = s.readReg r := rfl

/-! ### `State.writeReg` -/

@[simp] theorem State.writeReg_gpr (s : State) (i : RegIdx) (v : Word) (upd : Bool) :
    (s.writeReg i v upd).gpr = s.gpr.set i v := rfl
@[simp] theorem State.writeReg_cond (s : State) (i : RegIdx) (v : Word) (upd : Bool) :
    (s.writeReg i v upd).cond = if upd then setCC v else s.cond := rfl
@[simp] theorem State.writeReg_pc (s : State) (i : RegIdx) (v : Word) (upd : Bool) :
    (s.writeReg i v upd).pc = s.pc := rfl
@[simp] theorem State.writeReg_run (s : State) (i : RegIdx) (v : Word) (upd : Bool) :
    (s.writeReg i v upd).run = s.run := rfl
@[simp] theorem State.writeReg_service (s : State) (i : RegIdx) (v : Word) (upd : Bool) :
    (s.writeReg i v upd).service = s.service := rfl
@[simp] theorem State.writeReg_mem (s : State) (i : RegIdx) (v : Word) (upd : Bool) :
    (s.writeReg i v upd).mem = s.mem := rfl
@[simp] theorem State.writeReg_programStart (s : State) (i : RegIdx) (v : Word) (upd : Bool) :
    (s.writeReg i v upd).programStart = s.programStart := rfl
@[simp] theorem State.writeReg_cin (s : State) (i : RegIdx) (v : Word) (upd : Bool) :
    (s.writeReg i v upd).cin = s.cin := rfl
@[simp] theorem State.writeReg_cout (s : State) (i : RegIdx) (v : Word) (upd : Bool) :
    (s.writeReg i v upd).cout = s.cout := rfl
@[simp] theorem State.writeReg_memRead (s : State) (i : RegIdx) (v : Word) (upd : Bool) (x : Word) :
    (s.writeReg i v upd).memRead x = s.memRead x := rfl

/-! ### `State.setPc` -/

@[simp] theorem State.setPc_gpr (s : State) (target : Word) :
    (s.setPc target).gpr = s.gpr := rfl
@[simp] theorem State.setPc_cond (s : State) (target : Word) :
    (s.setPc target).cond = s.cond := rfl
@[simp] theorem State.setPc_pc (s : State) (target : Word) :
    (s.setPc target).pc = target := rfl
@[simp] theorem State.setPc_run (s : State) (target : Word) :
    (s.setPc target).run = s.run := rfl
@[simp] theorem State.setPc_service (s : State) (target : Word) :
    (s.setPc target).service = s.service := rfl
@[simp] theorem State.setPc_mem (s : State) (target : Word) :
    (s.setPc target).mem = s.mem := rfl
@[simp] theorem State.setPc_programStart (s : State) (target : Word) :
    (s.setPc target).programStart = s.programStart := rfl
@[simp] theorem State.setPc_cin (s : State) (target : Word) :
    (s.setPc target).cin = s.cin := rfl
@[simp] theorem State.setPc_cout (s : State) (target : Word) :
    (s.setPc target).cout = s.cout := rfl
@[simp] theorem State.setPc_readReg (s : State) (target : Word) (r : RegIdx) :
    (s.setPc target).readReg r = s.readReg r := rfl
@[simp] theorem State.setPc_memRead (s : State) (target : Word) (x : Word) :
    (s.setPc target).memRead x = s.memRead x := rfl

/-! ### `State.advancePc` -/

@[simp] theorem State.advancePc_gpr (s : State) :
    s.advancePc.gpr = s.gpr := rfl
@[simp] theorem State.advancePc_cond (s : State) :
    s.advancePc.cond = s.cond := rfl
@[simp] theorem State.advancePc_pc (s : State) :
    s.advancePc.pc = s.pc + 1 := rfl
@[simp] theorem State.advancePc_run (s : State) :
    s.advancePc.run = s.run := rfl
@[simp] theorem State.advancePc_service (s : State) :
    s.advancePc.service = s.service := rfl
@[simp] theorem State.advancePc_mem (s : State) :
    s.advancePc.mem = s.mem := rfl
@[simp] theorem State.advancePc_programStart (s : State) :
    s.advancePc.programStart = s.programStart := rfl
@[simp] theorem State.advancePc_cin (s : State) :
    s.advancePc.cin = s.cin := rfl
@[simp] theorem State.advancePc_cout (s : State) :
    s.advancePc.cout = s.cout := rfl
@[simp] theorem State.advancePc_readReg (s : State) (r : RegIdx) :
    s.advancePc.readReg r = s.readReg r := rfl
@[simp] theorem State.advancePc_memRead (s : State) (x : Word) :
    s.advancePc.memRead x = s.memRead x := rfl

/-! ### `State.conWrite` -/

@[simp] theorem State.conWrite_gpr (s : State) (b : Byte) :
    (s.conWrite b).gpr = s.gpr := rfl
@[simp] theorem State.conWrite_cond (s : State) (b : Byte) :
    (s.conWrite b).cond = s.cond := rfl
@[simp] theorem State.conWrite_pc (s : State) (b : Byte) :
    (s.conWrite b).pc = s.pc := rfl
@[simp] theorem State.conWrite_run (s : State) (b : Byte) :
    (s.conWrite b).run = s.run := rfl
@[simp] theorem State.conWrite_service (s : State) (b : Byte) :
    (s.conWrite b).service = s.service := rfl
@[simp] theorem State.conWrite_mem (s : State) (b : Byte) :
    (s.conWrite b).mem = s.mem := rfl
@[simp] theorem State.conWrite_programStart (s : State) (b : Byte) :
    (s.conWrite b).programStart = s.programStart := rfl
@[simp] theorem State.conWrite_cin (s : State) (b : Byte) :
    (s.conWrite b).cin = s.cin := rfl
@[simp] theorem State.conWrite_cout (s : State) (b : Byte) :
    (s.conWrite b).cout = s.cout ++ [b] := rfl
@[simp] theorem State.conWrite_readReg (s : State) (b : Byte) (r : RegIdx) :
    (s.conWrite b).readReg r = s.readReg r := rfl
@[simp] theorem State.conWrite_memRead (s : State) (b : Byte) (x : Word) :
    (s.conWrite b).memRead x = s.memRead x := rfl

/-! ### `State.setInput` -/

@[simp] theorem State.setInput_gpr (s : State) (rest : List Byte) :
    (s.setInput rest).gpr = s.gpr := rfl
@[simp] theorem State.setInput_cond (s : State) (rest : List Byte) :
    (s.setInput rest).cond = s.cond := rfl
@[simp] theorem State.setInput_pc (s : State) (rest : List Byte) :
    (s.setInput rest).pc = s.pc := rfl
@[simp] theorem State.setInput_run (s : State) (rest : List Byte) :
    (s.setInput rest).run = s.run := rfl
@[simp] theorem State.setInput_service (s : State) (rest : List Byte) :
    (s.setInput rest).service = s.service := rfl
@[simp] theorem State.setInput_mem (s : State) (rest : List Byte) :
    (s.setInput rest).mem = s.mem := rfl
@[simp] theorem State.setInput_programStart (s : State) (rest : List Byte) :
    (s.setInput rest).programStart = s.programStart := rfl
@[simp] theorem State.setInput_cin (s : State) (rest : List Byte) :
    (s.setInput rest).cin = rest := rfl
@[simp] theorem State.setInput_cout (s : State) (rest : List Byte) :
    (s.setInput rest).cout = s.cout := rfl
@[simp] theorem State.setInput_readReg (s : State) (rest : List Byte) (r : RegIdx) :
    (s.setInput rest).readReg r = s.readReg r := rfl
@[simp] theorem State.setInput_memRead (s : State) (rest : List Byte) (x : Word) :
    (s.setInput rest).memRead x = s.memRead x := rfl

/-! ### `State.setService` -/

@[simp] theorem State.setService_gpr (s : State) (v : Service) :
    (s.setService v).gpr = s.gpr := rfl
@[simp] theorem State.setService_cond (s : State) (v : Service) :
    (s.setService v).cond = s.cond := rfl
@[simp] theorem State.setService_pc (s : State) (v : Service) :
    (s.setService v).pc = s.pc := rfl
@[simp] theorem State.setService_run (s : State) (v : Service) :
    (s.setService v).run = s.run := rfl
@[simp] theorem State.setService_service (s : State) (v : Service) :
    (s.setService v).service = v := rfl
@[simp] theorem State.setService_mem (s : State) (v : Service) :
    (s.setService v).mem = s.mem := rfl
@[simp] theorem State.setService_programStart (s : State) (v : Service) :
    (s.setService v).programStart = s.programStart := rfl
@[simp] theorem State.setService_cin (s : State) (v : Service) :
    (s.setService v).cin = s.cin := rfl
@[simp] theorem State.setService_cout (s : State) (v : Service) :
    (s.setService v).cout = s.cout := rfl
@[simp] theorem State.setService_readReg (s : State) (v : Service) (r : RegIdx) :
    (s.setService v).readReg r = s.readReg r := rfl
@[simp] theorem State.setService_memRead (s : State) (v : Service) (x : Word) :
    (s.setService v).memRead x = s.memRead x := rfl

/-! ### `State.halt` -/

@[simp] theorem State.halt_gpr (s : State) :
    s.halt.gpr = s.gpr := rfl
@[simp] theorem State.halt_cond (s : State) :
    s.halt.cond = s.cond := rfl
@[simp] theorem State.halt_pc (s : State) :
    s.halt.pc = s.pc := rfl
@[simp] theorem State.halt_run (s : State) :
    s.halt.run = .halted := rfl
@[simp] theorem State.halt_service (s : State) :
    s.halt.service = s.service := rfl
@[simp] theorem State.halt_mem (s : State) :
    s.halt.mem = s.mem := rfl
@[simp] theorem State.halt_programStart (s : State) :
    s.halt.programStart = s.programStart := rfl
@[simp] theorem State.halt_cin (s : State) :
    s.halt.cin = s.cin := rfl
@[simp] theorem State.halt_cout (s : State) :
    s.halt.cout = s.cout := rfl
@[simp] theorem State.halt_readReg (s : State) (r : RegIdx) :
    s.halt.readReg r = s.readReg r := rfl
@[simp] theorem State.halt_memRead (s : State) (x : Word) :
    s.halt.memRead x = s.memRead x := rfl

/-! ### `State.raiseFatal` -/

@[simp] theorem State.raiseFatal_gpr (s : State) (kind : FaultKind) (info : Word) :
    (s.raiseFatal kind info).gpr = s.gpr := rfl
@[simp] theorem State.raiseFatal_cond (s : State) (kind : FaultKind) (info : Word) :
    (s.raiseFatal kind info).cond = s.cond := rfl
@[simp] theorem State.raiseFatal_pc (s : State) (kind : FaultKind) (info : Word) :
    (s.raiseFatal kind info).pc = s.pc := rfl
@[simp] theorem State.raiseFatal_run (s : State) (kind : FaultKind) (info : Word) :
    (s.raiseFatal kind info).run = .faulted kind info := rfl
@[simp] theorem State.raiseFatal_service (s : State) (kind : FaultKind) (info : Word) :
    (s.raiseFatal kind info).service = s.service := rfl
@[simp] theorem State.raiseFatal_mem (s : State) (kind : FaultKind) (info : Word) :
    (s.raiseFatal kind info).mem = s.mem := rfl
@[simp] theorem State.raiseFatal_programStart (s : State) (kind : FaultKind) (info : Word) :
    (s.raiseFatal kind info).programStart = s.programStart := rfl
@[simp] theorem State.raiseFatal_cin (s : State) (kind : FaultKind) (info : Word) :
    (s.raiseFatal kind info).cin = s.cin := rfl
@[simp] theorem State.raiseFatal_cout (s : State) (kind : FaultKind) (info : Word) :
    (s.raiseFatal kind info).cout = s.cout := rfl
@[simp] theorem State.raiseFatal_readReg (s : State) (kind : FaultKind) (info : Word) (r : RegIdx) :
    (s.raiseFatal kind info).readReg r = s.readReg r := rfl
@[simp] theorem State.raiseFatal_memRead (s : State) (kind : FaultKind) (info : Word) (x : Word) :
    (s.raiseFatal kind info).memRead x = s.memRead x := rfl

/-! ### `State.initPc` -/

@[simp] theorem State.initPc_gpr (s : State) :
    s.initPc.gpr = s.gpr := rfl
@[simp] theorem State.initPc_cond (s : State) :
    s.initPc.cond = s.cond := rfl
@[simp] theorem State.initPc_pc (s : State) :
    s.initPc.pc = s.programStart := rfl
@[simp] theorem State.initPc_run (s : State) :
    s.initPc.run = s.run := rfl
@[simp] theorem State.initPc_service (s : State) :
    s.initPc.service = s.service := rfl
@[simp] theorem State.initPc_mem (s : State) :
    s.initPc.mem = s.mem := rfl
@[simp] theorem State.initPc_programStart (s : State) :
    s.initPc.programStart = s.programStart := rfl
@[simp] theorem State.initPc_cin (s : State) :
    s.initPc.cin = s.cin := rfl
@[simp] theorem State.initPc_cout (s : State) :
    s.initPc.cout = s.cout := rfl
@[simp] theorem State.initPc_readReg (s : State) (r : RegIdx) :
    s.initPc.readReg r = s.readReg r := rfl
@[simp] theorem State.initPc_memRead (s : State) (x : Word) :
    s.initPc.memRead x = s.memRead x := rfl

/-! ### `State.supplyInput` -/

@[simp] theorem State.supplyInput_gpr (s : State) (bytes : List Byte) :
    (s.supplyInput bytes).gpr = s.gpr := rfl
@[simp] theorem State.supplyInput_cond (s : State) (bytes : List Byte) :
    (s.supplyInput bytes).cond = s.cond := rfl
@[simp] theorem State.supplyInput_pc (s : State) (bytes : List Byte) :
    (s.supplyInput bytes).pc = s.pc := rfl
@[simp] theorem State.supplyInput_run (s : State) (bytes : List Byte) :
    (s.supplyInput bytes).run = s.run := rfl
@[simp] theorem State.supplyInput_service (s : State) (bytes : List Byte) :
    (s.supplyInput bytes).service = s.service := rfl
@[simp] theorem State.supplyInput_mem (s : State) (bytes : List Byte) :
    (s.supplyInput bytes).mem = s.mem := rfl
@[simp] theorem State.supplyInput_programStart (s : State) (bytes : List Byte) :
    (s.supplyInput bytes).programStart = s.programStart := rfl
@[simp] theorem State.supplyInput_cin (s : State) (bytes : List Byte) :
    (s.supplyInput bytes).cin = s.cin ++ bytes := rfl
@[simp] theorem State.supplyInput_cout (s : State) (bytes : List Byte) :
    (s.supplyInput bytes).cout = s.cout := rfl
@[simp] theorem State.supplyInput_readReg (s : State) (bytes : List Byte) (r : RegIdx) :
    (s.supplyInput bytes).readReg r = s.readReg r := rfl
@[simp] theorem State.supplyInput_memRead (s : State) (bytes : List Byte) (x : Word) :
    (s.supplyInput bytes).memRead x = s.memRead x := rfl

/-! ### `State.withFetchWord` -/

@[simp] theorem State.withFetchWord_gpr (s : State) (nbits w : Nat) :
    (s.withFetchWord nbits w).gpr = s.gpr := rfl
@[simp] theorem State.withFetchWord_cond (s : State) (nbits w : Nat) :
    (s.withFetchWord nbits w).cond = s.cond := rfl
@[simp] theorem State.withFetchWord_pc (s : State) (nbits w : Nat) :
    (s.withFetchWord nbits w).pc = s.pc := rfl
@[simp] theorem State.withFetchWord_run (s : State) (nbits w : Nat) :
    (s.withFetchWord nbits w).run = .running := rfl
@[simp] theorem State.withFetchWord_service (s : State) (nbits w : Nat) :
    (s.withFetchWord nbits w).service = .none := rfl
@[simp] theorem State.withFetchWord_mem (s : State) (nbits w : Nat) :
    (s.withFetchWord nbits w).mem = s.mem.writeWord s.pc (BitVec.ofNat 16 (w % 2 ^ nbits)) := rfl
@[simp] theorem State.withFetchWord_programStart (s : State) (nbits w : Nat) :
    (s.withFetchWord nbits w).programStart = s.programStart := rfl
@[simp] theorem State.withFetchWord_cin (s : State) (nbits w : Nat) :
    (s.withFetchWord nbits w).cin = s.cin := rfl
@[simp] theorem State.withFetchWord_cout (s : State) (nbits w : Nat) :
    (s.withFetchWord nbits w).cout = s.cout := rfl
@[simp] theorem State.withFetchWord_readReg (s : State) (nbits w : Nat) (r : RegIdx) :
    (s.withFetchWord nbits w).readReg r = s.readReg r := rfl

/-! ### Reset (R236) -/

@[simp] theorem State.resetWith_gpr (p : ResetParams) : (State.resetWith p).gpr = p.gpr := rfl
@[simp] theorem State.resetWith_cond (p : ResetParams) : (State.resetWith p).cond = p.cond := rfl
@[simp] theorem State.resetWith_pc (p : ResetParams) : (State.resetWith p).pc = p.origin := rfl
@[simp] theorem State.resetWith_run (p : ResetParams) : (State.resetWith p).run = .halted := rfl
@[simp] theorem State.resetWith_service (p : ResetParams) : (State.resetWith p).service = .none := rfl
@[simp] theorem State.resetWith_mem (p : ResetParams) : (State.resetWith p).mem = p.mem := rfl
@[simp] theorem State.resetWith_programStart (p : ResetParams) : (State.resetWith p).programStart = p.origin := rfl
@[simp] theorem State.resetWith_cin (p : ResetParams) : (State.resetWith p).cin = [] := rfl
@[simp] theorem State.resetWith_cout (p : ResetParams) : (State.resetWith p).cout = [] := rfl

end Sys2Proof.Machine
end

