-- ==== Sys2Proof/Laws/Encoding.lean ====
section
/-! SUPPORT. Fields of a word put together from fields (30_encoding.md R71, R76). -/

namespace Sys2Proof

theorem field_or (a b : Word) (lo n : Nat) : field (a ||| b) lo n = field a lo n ||| field b lo n := by
  apply BitVec.eq_of_getLsbD_eq; intro i hi; simp [field, hi]

theorem bitAt_or (a b : Word) (i : Nat) : bitAt (a ||| b) i = (bitAt a i || bitAt b i) := by simp [bitAt]

theorem bitAt_putField {n : Nat} (v : BitVec n) (lo i : Nat) :
    bitAt (putField v lo) i = (decide (lo ≤ i ∧ i < 16) && v.getLsbD (i - lo)) := by
  simp only [bitAt, putField, BitVec.getLsbD_shiftLeft, BitVec.getLsbD_setWidth]
  by_cases h : lo ≤ i <;> by_cases h' : i < 16 <;> simp [h, h', Nat.not_lt.mpr, Nat.not_le.mp]
  omega

theorem bitAt_ofNat (k i : Nat) : bitAt (BitVec.ofNat 16 k) i = decide (i < 16 ∧ k / 2 ^ i % 2 = 1) := by
  simp only [bitAt, BitVec.getLsbD_ofNat, Nat.testBit_eq_decide_div_mod_eq, Bool.decide_and]

theorem field_ofNat (k lo n : Nat) : field (BitVec.ofNat 16 k) lo n = BitVec.ofNat n ((k % 2 ^ 16) >>> lo) := by
  apply BitVec.eq_of_toNat_eq; simp [field, Nat.shiftRight_eq_div_pow]

/-- A field is read back where it was put. -/
theorem field_putField_self {n : Nat} (v : BitVec n) (lo : Nat) (h : lo + n ≤ 16) :
    field (putField v lo) lo n = v := by
  apply BitVec.eq_of_getLsbD_eq; intro i hi
  have := bitAt_putField v lo (lo + i)
  simp only [bitAt] at this
  simp only [field, BitVec.getLsbD_extractLsb', hi, decide_true, Bool.true_and, this]
  simp; omega

/-- A field put elsewhere leaves these bits 0. -/
theorem field_putField_apart {k : Nat} (v : BitVec k) (at_ lo n : Nat) (h : at_ + k ≤ lo ∨ lo + n ≤ at_) :
    field (putField v at_) lo n = 0 := by
  apply BitVec.eq_of_getLsbD_eq; intro i hi
  have hb := bitAt_putField v at_ (lo + i)
  simp only [bitAt] at hb
  simp only [field, BitVec.getLsbD_extractLsb', hi, decide_true, Bool.true_and, hb]
  rcases h with h | h
  · rw [BitVec.getLsbD_of_ge v _ (by omega)]; simp
  · have : ¬ (at_ ≤ lo + i) := by omega
    simp [this]

/-- Whether two words agree under a mask, bit by bit. -/
theorem and_mask_eq_iff (w v m : Word) :
    w &&& m = v &&& m ↔ ∀ i, i < 16 → bitAt m i = true → bitAt w i = bitAt v i := by
  constructor
  · intro h i hi hm
    have := congrArg (fun x => BitVec.getLsbD x i) h
    simp only [bitAt] at hm ⊢
    simpa [hm] using this
  · intro h
    apply BitVec.eq_of_getLsbD_eq; intro i hi
    by_cases hm : bitAt m i = true
    · have := h i hi hm; simp only [bitAt] at this hm; simp [this]
    · simp only [bitAt] at hm; simp [hm]

theorem bitAt_ofBool (b : Bool) : (BitVec.ofBool b).getLsbD 0 = b := by cases b <;> rfl

theorem regOf_regBits (r : RegIdx) : regOf (regBits r) = r := rfl

theorem regBits_regOf (b : BitVec 3) : regBits (regOf b) = b := rfl

/-- R142, R86: a base other than R7 is left a JMP. -/
theorem decodeJump_of_ne (r : RegIdx) (h : r ≠ 7) : decodeJump r = .jmp r := by simp [decodeJump, h]

/-- R160: a vector that is none of the five is left a TRAP. -/
theorem decodeTrap_of_undefined (u : BitVec 4) (v : Byte) (h : definedVector v = false) :
    decodeTrap u v = .trap u v := by
  simp only [definedVector, Bool.or_eq_false_iff, beq_eq_false_iff_ne] at h
  obtain ⟨⟨⟨⟨h1, h2⟩, h3⟩, h4⟩, h5⟩ := h
  simp only [decodeTrap, h1, h2, h3, h4, h5, if_false]

/-- Whether a word is one of a row's words, bit by bit. -/
theorem covers_iff (r : TableRow) (w : Word) (h : r.value &&& r.mask = r.value) :
    r.covers w = true ↔ ∀ i, i < 16 → bitAt r.mask i = true → bitAt w i = bitAt r.value i := by
  rw [← and_mask_eq_iff, h]; simp [TableRow.covers]

/-- A row's value has no bit outside its mask. -/
theorem row_value (i : Instr) : i.row.value &&& i.row.mask = i.row.value := by
  cases i <;> simp only [Instr.row] <;> rfl

end Sys2Proof
end

