-- ==== Sys2Proof/Laws/Memory.lean ====
section
/-! SUPPORT. Read after write, and the canonical form, for memory (20_memory.md R50 to R52). The read laws hold of every
list of cells, canonical or not. -/

namespace Sys2Proof.Machine

/-! ### Cells -/

theorem cellsRead_erase (cs : List Host.Cell) (a k : Nat) :
    cellsRead (cellsErase cs a) k = if k = a then Memory.unlistedByte else cellsRead cs k := by
  induction cs with
  | nil => simp [cellsErase, cellsRead]
  | cons c cs ih =>
    obtain ⟨j, b⟩ := c
    by_cases hj : j = a
    · subst hj
      simp only [cellsErase, if_true, ih, cellsRead]
      by_cases hk : k = j
      · simp [hk]
      · simp [hk, Ne.symm hk]
    · simp only [cellsErase, hj, if_false, cellsRead, ih]
      by_cases hk : j = k
      · subst hk; simp [hj]
      · simp [hk]

theorem cellsRead_insert (cs : List Host.Cell) (a k : Nat) (b : Byte) (h : ∀ c ∈ cs, c.1 ≠ a) :
    cellsRead (cellsInsert cs a b) k = if k = a then b else cellsRead cs k := by
  induction cs with
  | nil => simp only [cellsInsert, cellsRead, eq_comm]
  | cons c cs ih =>
    obtain ⟨j, d⟩ := c
    have hja : j ≠ a := h (j, d) (by simp)
    have ih' := ih fun c hc => h c (by simp [hc])
    by_cases hlt : a < j
    · simp only [cellsInsert, hlt, if_true, cellsRead, eq_comm (a := a)]
    · simp only [cellsInsert, hlt, if_false, cellsRead, ih']
      by_cases hk : j = k
      · subst hk; simp [hja]
      · simp [hk]

theorem cellsErase_ne (cs : List Host.Cell) (a : Nat) : ∀ c ∈ cellsErase cs a, c.1 ≠ a := by
  induction cs with
  | nil => simp [cellsErase]
  | cons c cs ih =>
    obtain ⟨j, b⟩ := c
    by_cases hj : j = a
    · simpa [cellsErase, hj] using ih
    · simpa [cellsErase, hj] using ih

theorem cellsWf_mono {lo lo' : Nat} (h : lo' ≤ lo) (cs : List Host.Cell) (hw : cellsWf lo cs = true) :
    cellsWf lo' cs = true := by
  cases cs with
  | nil => rfl
  | cons c cs =>
    simp only [cellsWf, Bool.and_eq_true, decide_eq_true_eq] at hw ⊢
    exact ⟨⟨⟨le_trans h hw.1.1.1, hw.1.1.2⟩, hw.1.2⟩, hw.2⟩

theorem cellsWf_erase (cs : List Host.Cell) (lo a : Nat) (hw : cellsWf lo cs = true) :
    cellsWf lo (cellsErase cs a) = true := by
  induction cs generalizing lo with
  | nil => rfl
  | cons c cs ih =>
    obtain ⟨j, b⟩ := c
    simp only [cellsWf, Bool.and_eq_true, decide_eq_true_eq] at hw
    by_cases hj : j = a
    · simp only [cellsErase, hj, if_true]
      exact cellsWf_mono (by omega) _ (ih (j + 1) hw.2)
    · simp only [cellsErase, hj, if_false, cellsWf, Bool.and_eq_true, decide_eq_true_eq]
      exact ⟨hw.1, ih (j + 1) hw.2⟩

theorem cellsWf_insert (cs : List Host.Cell) (lo a : Nat) (b : Byte) (hw : cellsWf lo cs = true)
    (hne : ∀ c ∈ cs, c.1 ≠ a) (hlo : lo ≤ a) (ha : a < 2 * Config.memoryWords) (hb : b ≠ Memory.unlistedByte) :
    cellsWf lo (cellsInsert cs a b) = true := by
  induction cs generalizing lo with
  | nil => simp [cellsInsert, cellsWf, hlo, ha, hb]
  | cons c cs ih =>
    obtain ⟨j, d⟩ := c
    have hja : j ≠ a := hne (j, d) (by simp)
    simp only [cellsWf, Bool.and_eq_true, decide_eq_true_eq] at hw
    by_cases hlt : a < j
    · simp only [cellsInsert, hlt, if_true, cellsWf, Bool.and_eq_true, decide_eq_true_eq, bne_iff_ne]
      exact ⟨⟨⟨hlo, ha⟩, hb⟩, ⟨⟨by omega, hw.1.1.2⟩, by simpa using hw.1.2⟩, hw.2⟩
    · simp only [cellsInsert, hlt, if_false, cellsWf, Bool.and_eq_true, decide_eq_true_eq]
      exact ⟨hw.1, ih (j + 1) hw.2 (fun c hc => hne c (by simp [hc])) (by omega)⟩

/-! ### Bytes -/

/-- Everything a byte write does to a byte read. -/
theorem Memory.readByte_writeByte (m : Memory) (a k : Nat) (b : Byte) :
    (m.writeByte a b).readByte k = if k = a then b else m.readByte k := by
  unfold Memory.writeByte Memory.readByte
  by_cases hb : b = Memory.unlistedByte
  · simp only [hb, if_true]; exact cellsRead_erase _ _ _
  · simp only [hb, if_false]
    rw [cellsRead_insert _ _ _ _ (cellsErase_ne _ _), cellsRead_erase]
    by_cases hk : k = a <;> simp [hk]

theorem Memory.wf_writeByte (m : Memory) (a : Nat) (b : Byte) (ha : a < 2 * Config.memoryWords)
    (h : m.wf = true) : (m.writeByte a b).wf = true := by
  unfold Memory.writeByte Memory.wf
  by_cases hb : b = Memory.unlistedByte
  · simpa [hb] using cellsWf_erase _ _ _ h
  · simpa [hb] using cellsWf_insert _ 0 a b (cellsWf_erase _ _ _ h) (cellsErase_ne _ _) (Nat.zero_le _) ha hb

/-! ### Words -/

theorem hiByteAddr_lt (a : Word) : hiByteAddr a < 2 * Config.memoryWords := by
  have := a.isLt; simp only [hiByteAddr, Config.memoryWords]; omega

theorem loByteAddr_lt (a : Word) : loByteAddr a < 2 * Config.memoryWords := by
  have := a.isLt; simp only [loByteAddr, Config.memoryWords]; omega

theorem wordOfBytes_fields (v : Word) : wordOfBytes (field v 8 8) (field v 0 8) = v := by
  simp only [wordOfBytes, field]
  apply BitVec.eq_of_getLsbD_eq
  intro i hi
  simp only [BitVec.getLsbD_append, BitVec.getLsbD_extractLsb']
  by_cases h : i < 8
  · simp [h]
  · have h1 : i - 8 < 8 := by omega
    have h2 : 8 + (i - 8) = i := by omega
    simp [h, h1, h2]

/-- Everything a word write does to a byte read (R52). -/
theorem Memory.readByte_writeWord (m : Memory) (a : Word) (v : Word) (k : Nat) :
    (m.writeWord a v).readByte k =
      if k = loByteAddr a then field v 0 8 else if k = hiByteAddr a then field v 8 8 else m.readByte k := by
  simp only [Memory.writeWord, Memory.readByte_writeByte]

/-- R52: no byte outside the word at `a` changes. -/
theorem Memory.readByte_writeWord_ne (m : Memory) (a : Word) (v : Word) (k : Nat)
    (hh : k ≠ hiByteAddr a) (hl : k ≠ loByteAddr a) : (m.writeWord a v).readByte k = m.readByte k := by
  simp [Memory.readByte_writeWord, hh, hl]

/-- R51, R52: everything a word write does to a word read. -/
theorem Memory.readWord_writeWord (m : Memory) (a x : Word) (v : Word) :
    (m.writeWord a v).readWord x = if x = a then v else m.readWord x := by
  simp only [Memory.readWord, Memory.readByte_writeWord]
  by_cases h : x = a
  · subst h
    have : hiByteAddr x ≠ loByteAddr x := by simp only [hiByteAddr, loByteAddr]; omega
    simp [this, wordOfBytes_fields]
  · have hn : x.toNat ≠ a.toNat := fun hh => h (BitVec.eq_of_toNat_eq hh)
    have h1 : hiByteAddr x ≠ loByteAddr a := by simp only [hiByteAddr, loByteAddr]; omega
    have h2 : hiByteAddr x ≠ hiByteAddr a := by simp only [hiByteAddr]; omega
    have h3 : loByteAddr x ≠ loByteAddr a := by simp only [loByteAddr]; omega
    have h4 : loByteAddr x ≠ hiByteAddr a := by simp only [hiByteAddr, loByteAddr]; omega
    simp [h, h1, h2, h3, h4]

@[simp] theorem Memory.readWord_writeWord_same (m : Memory) (a v : Word) : (m.writeWord a v).readWord a = v := by
  simp [Memory.readWord_writeWord]

/-- The canonical form is kept by the one write the machine has. -/
theorem Memory.wf_writeWord (m : Memory) (a v : Word) (h : m.wf = true) : (m.writeWord a v).wf = true :=
  Memory.wf_writeByte _ _ _ (loByteAddr_lt a) (Memory.wf_writeByte _ _ _ (hiByteAddr_lt a) h)

/-- The canonical form is kept by the loader's copy (R63). -/
theorem Memory.wf_writeWords (vs : List Word) (m : Memory) (a : Word) (h : m.wf = true) :
    (m.writeWords a vs).wf = true := by
  induction vs generalizing m a with
  | nil => exact h
  | cons v vs ih => exact ih _ _ (Memory.wf_writeWord m a v h)

/-- Memory at reset is in canonical form. -/
theorem State.reset_mem_wf : State.reset.mem.wf = true := rfl

/-- The canonical form is kept by a store of the machine. -/
theorem State.memWrite_wf (s : State) (a v : Word) (h : s.mem.wf = true) : (s.memWrite a v).mem.wf = true :=
  Memory.wf_writeWord _ _ _ h

/-- Everything a store does to a read (R51, R52). -/
theorem State.memRead_memWrite (s : State) (a v x : Word) :
    (s.memWrite a v).memRead x = if x = a then v else s.memRead x :=
  Memory.readWord_writeWord _ _ _ _

end Sys2Proof.Machine
end

