-- ==== Sys2Proof/Laws/Registers.lean ====
section
/-! SUPPORT. Read after write for the general registers (10_state.md R21, R22), and the flag function (R24). -/

namespace Sys2Proof.Machine

/-- R21, R22: everything a register write does to a register read. -/
theorem State.readReg_writeReg (s : State) (i r : RegIdx) (v : Word) (upd : Bool) :
    (s.writeReg i v upd).readReg r = if r = i then v else s.readReg r := by
  simp only [State.writeReg, State.readReg, Fin.getElem_fin, Vector.getElem_set, Fin.ext_iff, eq_comm]

@[simp] theorem State.readReg_writeReg_same (s : State) (i : RegIdx) (v : Word) (upd : Bool) :
    (s.writeReg i v upd).readReg i = v := by
  simp [State.readReg_writeReg]

theorem State.readReg_writeReg_ne (s : State) (i r : RegIdx) (v : Word) (upd : Bool) (h : r ≠ i) :
    (s.writeReg i v upd).readReg r = s.readReg r := by
  simp [State.readReg_writeReg, h]

/-- R22: a write without update leaves the flag. -/
@[simp] theorem State.writeReg_cond_false (s : State) (i : RegIdx) (v : Word) :
    (s.writeReg i v false).cond = s.cond := rfl

/-- R22: a write with update recomputes the flag from the value. -/
@[simp] theorem State.writeReg_cond_true (s : State) (i : RegIdx) (v : Word) :
    (s.writeReg i v true).cond = setCC v := rfl

/-- R24: ZERO is the flag of 0x0000 alone. -/
theorem setCC_eq_z (v : Word) : setCC v = .z ↔ v = 0#16 := by
  by_cases h : v = 0#16
  · simp [setCC, h]
  · by_cases hb : v.getLsbD 15 = true <;> simp only [setCC, h, hb, if_true, if_false] <;> simp

end Sys2Proof.Machine
end

