-- ==== Sys2Proof/Laws/Meanings.lean ====
section
/-! SUPPORT. What each shared operation of the meanings does, said once, and every way a step can go. -/

namespace Sys2Proof.Machine

/-! ### The shared operations as one record update -/

theorem State.operate_eq (s : State) (op : AluOp) (dr : RegIdx) (a b : Word) :
    s.operate op dr a b = { s with gpr := s.gpr.set dr (alu op a b), cond := setCC (alu op a b) } := rfl

theorem State.load_eq (s : State) (dr : RegIdx) (ea : Word) :
    s.load dr ea = { s with gpr := s.gpr.set dr (s.mem.readWord ea), cond := setCC (s.mem.readWord ea) } := rfl

theorem State.store_eq (s : State) (sr : RegIdx) (ea : Word) :
    s.store sr ea = { s with mem := s.mem.writeWord ea (s.readReg sr) } := rfl

theorem State.link_eq (s : State) :
    s.link = { s with gpr := s.gpr.set 7 s.pc, cond := if Config.jsrUpdatesFlags then setCC s.pc else s.cond } := rfl

theorem State.jumpTo_eq (s : State) (r : RegIdx) : s.jumpTo r = { s with pc := s.readReg r } := rfl

/-- R144: the base read after the link is the return address for R7, the register itself otherwise. -/
theorem State.link_readReg (s : State) (r : RegIdx) : s.link.readReg r = if r = 7 then s.pc else s.readReg r :=
  State.readReg_writeReg _ _ _ _ _

/-! ### The substeps of a service -/

@[simp] theorem State.getcSubstep_nil (s : State) (h : s.cin = []) : s.getcSubstep = s := by
  simp [State.getcSubstep, h]

theorem State.getcSubstep_cons (s : State) (b : Byte) (rest : List Byte) (h : s.cin = b :: rest) :
    s.getcSubstep = { s with gpr := s.gpr.set 0 (zextByte b), cin := rest, service := .none } := by
  simp [State.getcSubstep, h, State.setInput, State.writeReg, State.setService]

@[simp] theorem State.inReadSubstep_nil (s : State) (h : s.cin = []) : s.inReadSubstep = s := by
  simp [State.inReadSubstep, h]

theorem State.inReadSubstep_cons (s : State) (b : Byte) (rest : List Byte) (h : s.cin = b :: rest) :
    s.inReadSubstep = { s with cin := rest, service := .inEcho b } := by
  simp [State.inReadSubstep, h, State.setInput, State.setService]

theorem State.putsSubstep_end (s : State) (addr : Word) (h : lowByte (s.memRead addr) = 0#8) :
    s.putsSubstep addr = { s with service := .none } := by
  simp [State.putsSubstep, h, State.setService]

theorem State.putsSubstep_char (s : State) (addr : Word) (h : lowByte (s.memRead addr) ≠ 0#8) :
    s.putsSubstep addr =
      { s with cout := s.cout ++ [lowByte (s.memRead addr)], service := .puts (addr + 1) } := by
  simp [State.putsSubstep, h, State.setService, State.conWrite]

/-- Every way a substep can go: nothing, a wait, a byte taken into R0, the end of PUTS, a character of PUTS, a prompt
byte, the read of IN, its echo. -/
theorem State.serviceStep_cases (s : State) :
    (s.service = .none ∧ s.serviceStep = s) ∨
    (s.cin = [] ∧ (s.service = .getc ∨ s.service = .inRead) ∧ s.serviceStep = s) ∨
    (∃ b rest, s.service = .getc ∧ s.cin = b :: rest ∧
      s.serviceStep = { s with gpr := s.gpr.set 0 (zextByte b), cin := rest, service := .none }) ∨
    (∃ a, s.service = .puts a ∧ lowByte (s.memRead a) = 0#8 ∧ s.serviceStep = { s with service := .none }) ∨
    (∃ a, s.service = .puts a ∧ lowByte (s.memRead a) ≠ 0#8 ∧
      s.serviceStep = { s with cout := s.cout ++ [lowByte (s.memRead a)], service := .puts (a + 1) }) ∨
    (∃ b rest, s.service = .inPrompt b rest ∧
      s.serviceStep = { s with cout := s.cout ++ [b], service := inProgress rest }) ∨
    (∃ b rest, s.service = .inRead ∧ s.cin = b :: rest ∧
      s.serviceStep = { s with cin := rest, service := .inEcho b }) ∨
    (∃ b, s.service = .inEcho b ∧
      s.serviceStep = { s with
        cout := s.cout ++ [b], gpr := s.gpr.set 0 (zextByte b),
        cond := if Config.inUpdatesFlags then setCC (zextByte b) else s.cond, service := .none }) := by
  unfold State.serviceStep
  cases hs : s.service with
  | none => simp
  | getc =>
    cases hc : s.cin with
    | nil => simp [hc]
    | cons b rest => simp [State.getcSubstep_cons s b rest hc]
  | puts a =>
    by_cases h : lowByte (s.memRead a) = 0#8
    · simp [h, State.putsSubstep_end s a h]
    · simp [h, State.putsSubstep_char s a h]
  | inPrompt b rest => simp [State.inPromptSubstep, State.conWrite, State.setService]
  | inRead =>
    cases hc : s.cin with
    | nil => simp [hc]
    | cons b rest => simp [State.inReadSubstep_cons s b rest hc]
  | inEcho b => simp [State.inEchoSubstep, State.conWrite, State.writeReg, State.setService]

/-! ### A step -/

/-- R211: in Halted the core does nothing. -/
theorem step_of_halted (s : State) (h : s.run = .halted) : step s = .next s := by simp [step, h]

/-- R239: between two instructions, a step is the fetched instruction's meaning. -/
theorem step_of_boundary (s : State) (h : s.run = .running) (hs : s.service = .none) :
    step s = exec s.instruction s.advancePc := by simp [step, h, hs]

/-- R169: inside a service, a step is its next substep. -/
theorem step_of_service (s : State) (h : s.run = .running) (hs : s.service ≠ .none) :
    step s = .next s.serviceStep := by
  unfold step; rw [h]; cases hv : s.service <;> simp_all

/-- Every way a step can go. -/
theorem step_cases (s t : State) (h : step s = .next t) :
    (s.run ≠ .running ∧ t = s) ∨
    (s.run = .running ∧ s.service = .none ∧ exec s.instruction s.advancePc = .next t) ∨
    (s.run = .running ∧ s.service ≠ .none ∧ t = s.serviceStep) := by
  cases hr : s.run with
  | halted => simp [step, hr] at h; simp [h]
  | faulted k i => simp [step, hr] at h; simp [h]
  | running =>
    by_cases hs : s.service = .none
    · rw [step_of_boundary s hr hs] at h; simp [hs, h]
    · rw [step_of_service s hr hs] at h
      have h' : s.serviceStep = t := by simpa using h
      simp [hs, h']

/-! ### Several steps -/

theorem steps_zero (s : State) : steps 0 s = .next s := rfl

/-- A step with a next state is followed by the others. -/
theorem steps_succ (s t : State) (n : Nat) (h : step s = .next t) : steps (n + 1) s = steps n t := by
  simp only [steps, h]

/-- A state that a step leaves alone is left alone by every number of steps. -/
theorem steps_of_fixed (s : State) (n : Nat) (h : step s = .next s) : steps n s = .next s := by
  induction n with
  | zero => rfl
  | succ n ih => rw [steps_succ s s n h, ih]

/-- A run of any machine goes on from the next state of its first step. -/
theorem core_run_succ (M : Host.Core) (n : Nat) (s t : M.State) (h : M.step s = .next t) :
    M.run (n + 1) s = M.run n t := by rw [Host.Core.run.eq_2, h]

/-- `steps` is the host's own run of the machine, wherever it goes on. -/
theorem steps_eq_core_run (n : Nat) (s t : State) (h : steps n s = .next t) : core.run n s = .next t := by
  induction n generalizing s with
  | zero => exact h
  | succ n ih =>
    cases hs : step s with
    | next u =>
      rw [steps_succ s u n hs] at h
      exact (core_run_succ core n s u hs).trans (ih u h)
    | fault r => cases r
    | refused r => simp [steps, hs] at h

/-! ### The branch test -/

/-- R140, R141: the branch test is a bitwise AND of the flag's bits with BR's. -/
theorem branchTaken_eq (n z p : Bool) (c : Cond) :
    branchTaken n z p c = ((c = .n ∧ n) ∨ (c = .z ∧ z) ∨ (c = .p ∧ p)) := by
  cases c <;> simp [branchTaken]

end Sys2Proof.Machine
end

