-- ==== Sys2Proof/Laws/PerInstr.lean ====
section
/-! SUPPORT. Two families of statements about an instruction as syntax, one lemma per constructor: its word decodes to
it (30_encoding.md R76, R83), and its word is one of its opcode-table row's words (R87). -/

set_option linter.unusedSimpArgs false -- one list of encoding lemmas serves every constructor

namespace Sys2Proof.Laws

/-- R76, R83: a well-formed instruction's word decodes to that instruction. -/
def RoundTrip.Statement (i : Instr) : Prop := i.wellFormed = true → decodeWord (encode i) = i

/-- R76, R87: an instruction's word is one of the words of its row of the opcode table. -/
def TableMatch.Statement (i : Instr) : Prop := i.row.covers (encode i) = true

/-! ### The word of each instruction decodes to it -/

theorem RoundTrip.addReg (dr sr1 sr2 : RegIdx) : RoundTrip.Statement (.addReg dr sr1 sr2) := fun _ => by
  simp [encode, decodeWord, fieldDR, fieldSR1, fieldSR2, bitAt_or, bitAt_putField, bitAt_ofNat, bitAt_ofBool,
    field_or, field_putField_self, field_putField_apart, field_ofNat, regOf_regBits]

theorem RoundTrip.addImm (dr sr1 : RegIdx) (imm5 : BitVec 5) : RoundTrip.Statement (.addImm dr sr1 imm5) := fun _ => by
  simp [encode, decodeWord, fieldDR, fieldSR1, fieldSR2, bitAt_or, bitAt_putField, bitAt_ofNat, bitAt_ofBool,
    field_or, field_putField_self, field_putField_apart, field_ofNat, regOf_regBits]

theorem RoundTrip.andReg (dr sr1 sr2 : RegIdx) : RoundTrip.Statement (.andReg dr sr1 sr2) := fun _ => by
  simp [encode, decodeWord, fieldDR, fieldSR1, fieldSR2, bitAt_or, bitAt_putField, bitAt_ofNat, bitAt_ofBool,
    field_or, field_putField_self, field_putField_apart, field_ofNat, regOf_regBits]

theorem RoundTrip.andImm (dr sr1 : RegIdx) (imm5 : BitVec 5) : RoundTrip.Statement (.andImm dr sr1 imm5) := fun _ => by
  simp [encode, decodeWord, fieldDR, fieldSR1, fieldSR2, bitAt_or, bitAt_putField, bitAt_ofNat, bitAt_ofBool,
    field_or, field_putField_self, field_putField_apart, field_ofNat, regOf_regBits]

theorem RoundTrip.not (dr sr1 : RegIdx) : RoundTrip.Statement (.not dr sr1) := fun _ => by
  simp [encode, decodeWord, fieldDR, fieldSR1, fieldSR2, bitAt_or, bitAt_putField, bitAt_ofNat, bitAt_ofBool,
    field_or, field_putField_self, field_putField_apart, field_ofNat, regOf_regBits]

theorem RoundTrip.ld (dr : RegIdx) (off : BitVec 9) : RoundTrip.Statement (.ld dr off) := fun _ => by
  simp [encode, decodeWord, fieldDR, fieldSR1, fieldSR2, bitAt_or, bitAt_putField, bitAt_ofNat, bitAt_ofBool,
    field_or, field_putField_self, field_putField_apart, field_ofNat, regOf_regBits]

theorem RoundTrip.ldi (dr : RegIdx) (off : BitVec 9) : RoundTrip.Statement (.ldi dr off) := fun _ => by
  simp [encode, decodeWord, fieldDR, fieldSR1, fieldSR2, bitAt_or, bitAt_putField, bitAt_ofNat, bitAt_ofBool,
    field_or, field_putField_self, field_putField_apart, field_ofNat, regOf_regBits]

theorem RoundTrip.ldr (dr baseR : RegIdx) (off : BitVec 6) : RoundTrip.Statement (.ldr dr baseR off) := fun _ => by
  simp [encode, decodeWord, fieldDR, fieldSR1, fieldSR2, bitAt_or, bitAt_putField, bitAt_ofNat, bitAt_ofBool,
    field_or, field_putField_self, field_putField_apart, field_ofNat, regOf_regBits]

theorem RoundTrip.lea (dr : RegIdx) (off : BitVec 9) : RoundTrip.Statement (.lea dr off) := fun _ => by
  simp [encode, decodeWord, fieldDR, fieldSR1, fieldSR2, bitAt_or, bitAt_putField, bitAt_ofNat, bitAt_ofBool,
    field_or, field_putField_self, field_putField_apart, field_ofNat, regOf_regBits]

theorem RoundTrip.st (sr : RegIdx) (off : BitVec 9) : RoundTrip.Statement (.st sr off) := fun _ => by
  simp [encode, decodeWord, fieldDR, fieldSR1, fieldSR2, bitAt_or, bitAt_putField, bitAt_ofNat, bitAt_ofBool,
    field_or, field_putField_self, field_putField_apart, field_ofNat, regOf_regBits]

theorem RoundTrip.sti (sr : RegIdx) (off : BitVec 9) : RoundTrip.Statement (.sti sr off) := fun _ => by
  simp [encode, decodeWord, fieldDR, fieldSR1, fieldSR2, bitAt_or, bitAt_putField, bitAt_ofNat, bitAt_ofBool,
    field_or, field_putField_self, field_putField_apart, field_ofNat, regOf_regBits]

theorem RoundTrip.str (sr baseR : RegIdx) (off : BitVec 6) : RoundTrip.Statement (.str sr baseR off) := fun _ => by
  simp [encode, decodeWord, fieldDR, fieldSR1, fieldSR2, bitAt_or, bitAt_putField, bitAt_ofNat, bitAt_ofBool,
    field_or, field_putField_self, field_putField_apart, field_ofNat, regOf_regBits]

theorem RoundTrip.br (n z p : Bool) (off : BitVec 9) : RoundTrip.Statement (.br n z p off) := fun _ => by
  simp [encode, decodeWord, fieldDR, fieldSR1, fieldSR2, bitAt_or, bitAt_putField, bitAt_ofNat, bitAt_ofBool,
    field_or, field_putField_self, field_putField_apart, field_ofNat, regOf_regBits]

theorem RoundTrip.jmp (baseR : RegIdx) : RoundTrip.Statement (.jmp baseR) := fun h => by
  simp [encode, decodeWord, fieldDR, fieldSR1, fieldSR2, bitAt_or, bitAt_putField, bitAt_ofNat, bitAt_ofBool,
    field_or, field_putField_self, field_putField_apart, field_ofNat, regOf_regBits, decodeJump_of_ne baseR (by simpa [Instr.wellFormed] using h)]

theorem RoundTrip.ret : RoundTrip.Statement .ret := fun _ => by decide

theorem RoundTrip.jsr (off : BitVec 11) : RoundTrip.Statement (.jsr off) := fun _ => by
  simp [encode, decodeWord, fieldDR, fieldSR1, fieldSR2, bitAt_or, bitAt_putField, bitAt_ofNat, bitAt_ofBool,
    field_or, field_putField_self, field_putField_apart, field_ofNat, regOf_regBits]

theorem RoundTrip.jsrr (baseR : RegIdx) : RoundTrip.Statement (.jsrr baseR) := fun _ => by
  simp [encode, decodeWord, fieldDR, fieldSR1, fieldSR2, bitAt_or, bitAt_putField, bitAt_ofNat, bitAt_ofBool,
    field_or, field_putField_self, field_putField_apart, field_ofNat, regOf_regBits]

theorem RoundTrip.rti (unused : BitVec 12) : RoundTrip.Statement (.rti unused) := fun _ => by
  simp [encode, decodeWord, fieldDR, fieldSR1, fieldSR2, bitAt_or, bitAt_putField, bitAt_ofNat, bitAt_ofBool,
    field_or, field_putField_self, field_putField_apart, field_ofNat, regOf_regBits]

theorem RoundTrip.trap (unused : BitVec 4) (vect : Byte) : RoundTrip.Statement (.trap unused vect) := fun h => by
  simp [encode, decodeWord, fieldDR, fieldSR1, fieldSR2, bitAt_or, bitAt_putField, bitAt_ofNat, bitAt_ofBool,
    field_or, field_putField_self, field_putField_apart, field_ofNat, regOf_regBits, decodeTrap_of_undefined unused vect (by simpa [Instr.wellFormed] using h)]

theorem RoundTrip.getc : RoundTrip.Statement .getc := fun _ => by decide

theorem RoundTrip.out : RoundTrip.Statement .out := fun _ => by decide

theorem RoundTrip.puts : RoundTrip.Statement .puts := fun _ => by decide

theorem RoundTrip.inChar : RoundTrip.Statement .inChar := fun _ => by decide

theorem RoundTrip.halt : RoundTrip.Statement .halt := fun _ => by decide

theorem RoundTrip.reserved (unused : BitVec 12) : RoundTrip.Statement (.reserved unused) := fun _ => by
  simp [encode, decodeWord, fieldDR, fieldSR1, fieldSR2, bitAt_or, bitAt_putField, bitAt_ofNat, bitAt_ofBool,
    field_or, field_putField_self, field_putField_apart, field_ofNat, regOf_regBits]

/-! ### The word of each instruction is one of its row's words -/

theorem TableMatch.addReg (dr sr1 sr2 : RegIdx) : TableMatch.Statement (.addReg dr sr1 sr2) :=
  (covers_iff _ _ (row_value _)).mpr fun i hi hm => by
    interval_cases i <;> simp [Instr.row, encode, bitAt_or, bitAt_putField, bitAt_ofNat] at hm ⊢

theorem TableMatch.addImm (dr sr1 : RegIdx) (imm5 : BitVec 5) : TableMatch.Statement (.addImm dr sr1 imm5) :=
  (covers_iff _ _ (row_value _)).mpr fun i hi hm => by
    interval_cases i <;> simp [Instr.row, encode, bitAt_or, bitAt_putField, bitAt_ofNat] at hm ⊢

theorem TableMatch.andReg (dr sr1 sr2 : RegIdx) : TableMatch.Statement (.andReg dr sr1 sr2) :=
  (covers_iff _ _ (row_value _)).mpr fun i hi hm => by
    interval_cases i <;> simp [Instr.row, encode, bitAt_or, bitAt_putField, bitAt_ofNat] at hm ⊢

theorem TableMatch.andImm (dr sr1 : RegIdx) (imm5 : BitVec 5) : TableMatch.Statement (.andImm dr sr1 imm5) :=
  (covers_iff _ _ (row_value _)).mpr fun i hi hm => by
    interval_cases i <;> simp [Instr.row, encode, bitAt_or, bitAt_putField, bitAt_ofNat] at hm ⊢

theorem TableMatch.not (dr sr1 : RegIdx) : TableMatch.Statement (.not dr sr1) :=
  (covers_iff _ _ (row_value _)).mpr fun i hi hm => by
    interval_cases i <;> simp [Instr.row, encode, bitAt_or, bitAt_putField, bitAt_ofNat] at hm ⊢

theorem TableMatch.ld (dr : RegIdx) (off : BitVec 9) : TableMatch.Statement (.ld dr off) :=
  (covers_iff _ _ (row_value _)).mpr fun i hi hm => by
    interval_cases i <;> simp [Instr.row, encode, bitAt_or, bitAt_putField, bitAt_ofNat] at hm ⊢

theorem TableMatch.ldi (dr : RegIdx) (off : BitVec 9) : TableMatch.Statement (.ldi dr off) :=
  (covers_iff _ _ (row_value _)).mpr fun i hi hm => by
    interval_cases i <;> simp [Instr.row, encode, bitAt_or, bitAt_putField, bitAt_ofNat] at hm ⊢

theorem TableMatch.ldr (dr baseR : RegIdx) (off : BitVec 6) : TableMatch.Statement (.ldr dr baseR off) :=
  (covers_iff _ _ (row_value _)).mpr fun i hi hm => by
    interval_cases i <;> simp [Instr.row, encode, bitAt_or, bitAt_putField, bitAt_ofNat] at hm ⊢

theorem TableMatch.lea (dr : RegIdx) (off : BitVec 9) : TableMatch.Statement (.lea dr off) :=
  (covers_iff _ _ (row_value _)).mpr fun i hi hm => by
    interval_cases i <;> simp [Instr.row, encode, bitAt_or, bitAt_putField, bitAt_ofNat] at hm ⊢

theorem TableMatch.st (sr : RegIdx) (off : BitVec 9) : TableMatch.Statement (.st sr off) :=
  (covers_iff _ _ (row_value _)).mpr fun i hi hm => by
    interval_cases i <;> simp [Instr.row, encode, bitAt_or, bitAt_putField, bitAt_ofNat] at hm ⊢

theorem TableMatch.sti (sr : RegIdx) (off : BitVec 9) : TableMatch.Statement (.sti sr off) :=
  (covers_iff _ _ (row_value _)).mpr fun i hi hm => by
    interval_cases i <;> simp [Instr.row, encode, bitAt_or, bitAt_putField, bitAt_ofNat] at hm ⊢

theorem TableMatch.str (sr baseR : RegIdx) (off : BitVec 6) : TableMatch.Statement (.str sr baseR off) :=
  (covers_iff _ _ (row_value _)).mpr fun i hi hm => by
    interval_cases i <;> simp [Instr.row, encode, bitAt_or, bitAt_putField, bitAt_ofNat] at hm ⊢

theorem TableMatch.br (n z p : Bool) (off : BitVec 9) : TableMatch.Statement (.br n z p off) :=
  (covers_iff _ _ (row_value _)).mpr fun i hi hm => by
    interval_cases i <;> simp [Instr.row, encode, bitAt_or, bitAt_putField, bitAt_ofNat] at hm ⊢

theorem TableMatch.jmp (baseR : RegIdx) : TableMatch.Statement (.jmp baseR) :=
  (covers_iff _ _ (row_value _)).mpr fun i hi hm => by
    interval_cases i <;> simp [Instr.row, encode, bitAt_or, bitAt_putField, bitAt_ofNat] at hm ⊢

theorem TableMatch.ret : TableMatch.Statement .ret := by unfold TableMatch.Statement; decide

theorem TableMatch.jsr (off : BitVec 11) : TableMatch.Statement (.jsr off) :=
  (covers_iff _ _ (row_value _)).mpr fun i hi hm => by
    interval_cases i <;> simp [Instr.row, encode, bitAt_or, bitAt_putField, bitAt_ofNat] at hm ⊢

theorem TableMatch.jsrr (baseR : RegIdx) : TableMatch.Statement (.jsrr baseR) :=
  (covers_iff _ _ (row_value _)).mpr fun i hi hm => by
    interval_cases i <;> simp [Instr.row, encode, bitAt_or, bitAt_putField, bitAt_ofNat] at hm ⊢

theorem TableMatch.rti (unused : BitVec 12) : TableMatch.Statement (.rti unused) :=
  (covers_iff _ _ (row_value _)).mpr fun i hi hm => by
    interval_cases i <;> simp [Instr.row, encode, bitAt_or, bitAt_putField, bitAt_ofNat] at hm ⊢

theorem TableMatch.trap (unused : BitVec 4) (vect : Byte) : TableMatch.Statement (.trap unused vect) :=
  (covers_iff _ _ (row_value _)).mpr fun i hi hm => by
    interval_cases i <;> simp [Instr.row, encode, bitAt_or, bitAt_putField, bitAt_ofNat] at hm ⊢

theorem TableMatch.getc : TableMatch.Statement .getc := by unfold TableMatch.Statement; decide

theorem TableMatch.out : TableMatch.Statement .out := by unfold TableMatch.Statement; decide

theorem TableMatch.puts : TableMatch.Statement .puts := by unfold TableMatch.Statement; decide

theorem TableMatch.inChar : TableMatch.Statement .inChar := by unfold TableMatch.Statement; decide

theorem TableMatch.halt : TableMatch.Statement .halt := by unfold TableMatch.Statement; decide

theorem TableMatch.reserved (unused : BitVec 12) : TableMatch.Statement (.reserved unused) :=
  (covers_iff _ _ (row_value _)).mpr fun i hi hm => by
    interval_cases i <;> simp [Instr.row, encode, bitAt_or, bitAt_putField, bitAt_ofNat] at hm ⊢

end Sys2Proof.Laws
end

