-- ==== Sys2Proof/Tests/Slice0.lean ====
section
/-! SUPPORT. The model's own tests. Expected values come from the examples of the instruction rules and from
95_test_vectors.md sections 1 and 2, never from the model. -/

namespace Sys2Proof.Tests

open Sys2Proof.Machine

/-! ### Well-formedness: each check refuses an ill-formed term -/

theorem test_wellFormed_refuses_jmp_r7 : (Instr.jmp 7).wellFormed = false := by decide
theorem test_wellFormed_refuses_trap_of_a_service : (Instr.trap 0 0x25).wellFormed = false := by decide
theorem test_wellFormed_accepts_trap_x24 : (Instr.trap 0 0x24).wellFormed = true := by decide

/-! ### Decoding: each constructor's word, written out from its format (R76) -/

theorem test_decode_addReg : decodeWord 0b0001_001_010_0_00_011 = .addReg 1 2 3 := by decide
theorem test_decode_addImm : decodeWord 0b0001_010_010_1_11111 = .addImm 2 2 (-1) := by decide
theorem test_decode_andReg : decodeWord 0b0101_010_011_0_00_100 = .andReg 2 3 4 := by decide
theorem test_decode_andImm : decodeWord 0b0101_001_001_1_10000 = .andImm 1 1 (-16) := by decide
theorem test_decode_not : decodeWord 0b1001_000_001_111111 = .not 0 1 := by decide
theorem test_decode_ld : decodeWord 0b0010_010_000001000 = .ld 2 8 := by decide
theorem test_decode_ldi : decodeWord 0b1010_001_000000011 = .ldi 1 3 := by decide
theorem test_decode_ldr : decodeWord 0b0110_000_110_100000 = .ldr 0 6 (-32) := by decide
theorem test_decode_lea : decodeWord 0b1110_000_000001010 = .lea 0 10 := by decide
theorem test_decode_st : decodeWord 0b0011_001_111111011 = .st 1 (-5) := by decide
theorem test_decode_sti : decodeWord 0b1011_001_000000001 = .sti 1 1 := by decide
theorem test_decode_str : decodeWord 0b0111_000_110_000001 = .str 0 6 1 := by decide
theorem test_decode_br : decodeWord 0b0000_0_0_1_111111101 = .br false false true (-3) := by decide
theorem test_decode_jmp : decodeWord 0b1100_111_010_111111 = .jmp 2 := by decide
theorem test_decode_ret : decodeWord 0b1100_000_111_000000 = .ret := by decide
theorem test_decode_jsr : decodeWord 0b0100_1_10000000000 = .jsr (-1024) := by decide
theorem test_decode_jsrr : decodeWord 0b0100_0_11_011_111111 = .jsrr 3 := by decide
theorem test_decode_rti : decodeWord 0b1000_000000000001 = .rti 1 := by decide
theorem test_decode_trap : decodeWord 0b1111_1010_00100100 = .trap 0xA 0x24 := by decide
theorem test_decode_getc : decodeWord 0b1111_0000_00100000 = .getc := by decide
theorem test_decode_out : decodeWord 0b1111_0000_00100001 = .out := by decide
theorem test_decode_puts : decodeWord 0b1111_0000_00100010 = .puts := by decide
theorem test_decode_in : decodeWord 0b1111_0000_00100011 = .inChar := by decide
theorem test_decode_halt : decodeWord 0b1111_1111_00100101 = .halt := by decide
theorem test_decode_reserved : decodeWord 0b1101_111111111111 = .reserved 0xFFF := by decide

theorem test_decode_truncated : decode [0x12] = .error .truncated := by decide
theorem test_decodeTableWord_add : decodeTableWord 16 0x1283 = some (.addReg 1 2 3) := by decide

/-! ### One step, from a small state -/

/-- A Running core at `pc` with these registers, this flag, these words in memory and this input. -/
def core0 (pc : Word) (regs : List (RegIdx × Word)) (c : Cond) (words : List (Word × Word)) (input : List Byte) :
    State :=
  { regs.foldl (fun s r => s.writeReg r.1 r.2 false) (words.foldl (fun s w => s.memWrite w.1 w.2) State.reset) with
    pc := pc, cond := c, run := .running, cin := input }

/-- What a look at the next state shows. -/
def after {α : Type} (s : State) (look : State → α) : Option α :=
  match step s with
  | .next t => some (look t)
  | .fault _ => none
  | .refused _ => none

-- 95_test_vectors.md 2.1
theorem test_addReg_carry_out :
    after (core0 0x3000 [(1, 0x1111), (2, 0xFFFF), (3, 1)] .n [(0x3000, 0x1283)] [])
      (fun t => (t.readReg 1, t.cond, t.pc)) = some (0, .z, 0x3001) := by decide
theorem test_addReg_dr_is_both_sources :
    after (core0 0x3000 [(1, 0x4000)] .z [(0x3000, 0x1241)] []) (fun t => (t.readReg 1, t.cond)) =
      some (0x8000, .n) := by decide
theorem test_addImm_min :
    after (core0 0x3000 [] .z [(0x3000, 0x1030)] []) (fun t => (t.readReg 0, t.cond)) = some (0xFFF0, .n) := by decide
theorem test_andReg : after (core0 0x3000 [(3, 0xF0F0), (4, 0x8F00)] .z [(0x3000, 0x54C4)] [])
    (fun t => (t.readReg 2, t.cond)) = some (0x8000, .n) := by decide
theorem test_andImm_negative : after (core0 0x3000 [(1, 0x123F)] .z [(0x3000, 0x5270)] [])
    (fun t => (t.readReg 1, t.cond)) = some (0x1230, .p) := by decide
theorem test_not_ignores_unused_bits : after (core0 0x3000 [(1, 0x00FF)] .z [(0x3000, 0x9040)] [])
    (fun t => (t.readReg 0, t.cond)) = some (0xFF00, .n) := by decide

-- 95_test_vectors.md 2.2
theorem test_ld_pc_wraps : after (core0 0xFFFF [] .z [(0xFFFF, 0x2001), (1, 0x8000)] [])
    (fun t => (t.readReg 0, t.cond, t.pc)) = some (0x8000, .n, 0) := by decide
theorem test_ld_address_wraps : after (core0 0 [] .z [(0, 0x21FE), (0xFFFF, 0x42)] [])
    (fun t => (t.readReg 0, t.cond, t.pc)) = some (0x42, .p, 1) := by decide
theorem test_ldi : after (core0 0x3004 [] .z [(0x3004, 0xA203), (0x3008, 0x300C), (0x300C, 0x29)] [])
    (fun t => (t.readReg 1, t.cond)) = some (0x29, .p) := by decide
theorem test_ldr_base_wraps : after (core0 0x3000 [(6, 0xFFFF)] .z [(0x3000, 0x6181), (0, 7)] [])
    (fun t => (t.readReg 0, t.cond)) = some (7, .p) := by decide
theorem test_ldr_dr_is_base : after (core0 0x3000 [(6, 0x4020)] .n [(0x3000, 0x6DA0)] [])
    (fun t => (t.readReg 6, t.cond)) = some (0, .z) := by decide
theorem test_lea_sets_flag : after (core0 0xFFFF [(1, 0x7777)] .p [(0xFFFF, 0xE200)] [])
    (fun t => (t.readReg 1, t.cond, t.pc)) = some (0, .z, 0) := by decide
theorem test_st : after (core0 0x3006 [(0, 0xF)] .n [(0x3006, 0x3003)] [])
    (fun t => (t.memRead 0x300A, t.cond, t.pc)) = some (0xF, .n, 0x3007) := by decide
theorem test_sti : after (core0 0x3006 [(1, 0x2A)] .z [(0x3006, 0xB201), (0x3008, 0x300C)] [])
    (fun t => (t.memRead 0x300C, t.memRead 0x3008)) = some (0x2A, 0x300C) := by decide
theorem test_str_sr_is_base : after (core0 0x3000 [(6, 0x5000)] .z [(0x3000, 0x7DBF)] [])
    (fun t => (t.memRead 0x4FFF, t.readReg 6)) = some (0x5000, 0x5000) := by decide

-- 95_test_vectors.md 2.3 and 2.4
theorem test_br_taken : after (core0 0x3005 [] .p [(0x3005, 0x03FD)] []) (fun t => t.pc) = some 0x3003 := by decide
theorem test_br_not_taken : after (core0 0x3005 [] .z [(0x3005, 0x03FD)] []) (fun t => t.pc) = some 0x3006 := by decide
theorem test_jmp : after (core0 0x3000 [(2, 0x1234)] .z [(0x3000, 0xCEBF)] []) (fun t => t.pc) = some 0x1234 := by
  decide
theorem test_ret : after (core0 0x3000 [(7, 0x3003)] .z [(0x3000, 0xC1C0)] []) (fun t => t.pc) = some 0x3003 := by
  decide
theorem test_jsr_pc_wraps : after (core0 0xFFFF [(7, 0x1234)] .z [(0xFFFF, 0x4BFF)] [])
    (fun t => (t.readReg 7, t.pc)) = some (0, 0x03FF) := by decide
theorem test_jsrr : after (core0 0x3010 [(3, 0x4000)] .z [(0x3010, 0x40C0)] [])
    (fun t => (t.readReg 7, t.pc)) = some (0x3011, 0x4000) := by decide
theorem test_jsrr_r7_written_first : after (core0 0x3010 [(7, 0x5000)] .z [(0x3010, 0x41C0)] [])
    (fun t => (t.readReg 7, t.pc)) = some (0x3011, 0x3011) := by decide
theorem test_rti : after (core0 0x3000 [] .z [(0x3000, 0x8000)] []) (fun t => (t.run, t.pc)) =
    some (.faulted .invalidOpcode 0x8000, 0x3001) := by decide
theorem test_reserved : after (core0 0x3000 [] .z [(0x3000, 0xDFFF)] []) (fun t => (t.run, t.pc)) =
    some (.faulted .invalidOpcode 0xDFFF, 0x3001) := by decide

-- 95_test_vectors.md 2.5
theorem test_getc : after (core0 0x3000 [(0, 0xFFFF)] .n [(0x3000, 0xF020)] [0x78])
    (fun t => (t.readReg 0, t.cond, t.cin, t.cout, t.pc)) = some (0x78, .n, [], [], 0x3001) := by decide
theorem test_getc_waits : after (core0 0x3000 [] .n [(0x3000, 0xF020)] [])
    (fun t => (t.service, t.run, t.pc)) = some (.getc, .running, 0x3001) := by decide
theorem test_out_high_byte_set : after (core0 0x3000 [(0, 0x4178)] .z [(0x3000, 0xF021)] []) (fun t => t.cout) =
    some [0x78] := by decide
theorem test_puts_high_byte_in_a_character : after (core0 0x3000 [(0, 0x4000)] .z [(0x3000, 0xF022), (0x4000, 0x5A41)] [])
    (fun t => (t.cout, t.service)) = some ([0x41], .puts 0x4001) := by decide
theorem test_puts_terminator : after (core0 0x3000 [(0, 0x4001)] .z [(0x3000, 0xF022), (0x4001, 0x4100)] [])
    (fun t => (t.cout, t.service)) = some ([], .none) := by decide
theorem test_in_read : after (({ core0 0x3001 [] .z [] [0x71] with service := .inRead }))
    (fun t => (t.cin, t.service)) = some ([], .inEcho 0x71) := by decide
theorem test_in_echo : after (({ core0 0x3001 [] .z [] [] with service := .inEcho 0x71 }))
    (fun t => (t.cout, t.readReg 0, t.service)) = some ([0x71], 0x71, .none) := by decide
theorem test_halt_ignores_unused_bits : after (core0 0x3003 [] .z [(0x3003, 0xFF25)] []) (fun t => (t.run, t.pc)) =
    some (.halted, 0x3004) := by decide
theorem test_trap_x24 : after (core0 0x3000 [] .z [(0x3000, 0xF024)] []) (fun t => (t.run, t.pc)) =
    some (.faulted .unsupportedTrapVector 0xF024, 0x3001) := by decide

/-! ### Sign extension (S1 to S3), the object file (S7) and the fetch word -/

theorem test_sext : (sext 0b01111#5, sext 0b111000#6, sext 0b10111111111#11) = (15, 0xFFF8, 0xFDFF) := by decide
theorem test_parseObject : parseObject [0x30, 0x00, 0xE0, 0x0A, 0x24, 0x08] = some (0x3000, [0xE00A, 0x2408]) := by decide
theorem test_parseObject_odd : parseObject [0x30, 0x00, 0xE0] = none := by decide
theorem test_launch_memoryBounds :
    (match State.launch ResetParams.named (some [0xFF, 0xFF, 0x12, 0x34, 0x56, 0x78]) with
      | .next t => some t.run
      | .fault _ => none
      | .refused _ => none) = some (.faulted .memoryBounds 0xFFFF) := by decide
theorem test_withFetchWord_runs : after (State.reset.withFetchWord 16 0x1021) (fun t => (t.readReg 0, t.pc)) =
    some (1, 0x3001) := by decide

/-! ### Witnesses: a concrete state and operands that meet the hypotheses of each statement -/

/-- A Running core between two instructions, at a word. -/
def at0 (w : Word) : State := core0 0x3000 [] .z [(0x3000, w)] []

/-- The next state of a step that has one. -/
def next (s : State) : State := (after s id).getD s

theorem witness_DecodeEncodeRoundTrip : (Instr.jmp 6).wellFormed = true ∧ (Instr.trap 0xF 0x24).wellFormed = true := by
  decide
theorem witness_DontCareBitsDecodeAlike :
    (0x129B : Word) &&& (decodeWord 0x1283).usedBits = 0x1283 &&& (decodeWord 0x1283).usedBits := by decide
theorem witness_OpcodeTablePartitionsTheWords : (Instr.row (.trap 0 0)).covers 0xF024 = true := by decide
theorem witness_InvalidEncodingsAreExactlyThese : (at0 0).run = .running ∧ field 0xDFFF 12 4 = 0xD := by decide
theorem witness_SignExtensionIsTwosComplement : 0 < 16 ∧ 16 ≤ 16 ∧ 0 < 1 ∧ 1 ≤ 16 := by decide
theorem witness_AddRegisterForm : (0x129B : Word) &&& 0xF020 = 0x1000 := by decide
theorem witness_AddImmediateForm : (0x1FFF : Word) &&& 0xF020 = 0x1020 := by decide
theorem witness_AndRegisterForm : (0x54C4 : Word) &&& 0xF020 = 0x5000 := by decide
theorem witness_AndImmediateForm : (0x5FFF : Word) &&& 0xF020 = 0x5020 := by decide
theorem witness_NotComplements : (0x9040 : Word) &&& 0xF000 = 0x9000 := by decide
theorem witness_LoadPcRelative : (0x2100 : Word) &&& 0xF000 = 0x2000 := by decide
theorem witness_LoadIndirect : (0xAFFF : Word) &&& 0xF000 = 0xA000 := by decide
theorem witness_LoadBaseOffset : (0x6DA0 : Word) &&& 0xF000 = 0x6000 := by decide
theorem witness_LoadEffectiveAddress : (0xE3FF : Word) &&& 0xF000 = 0xE000 := by decide
theorem witness_StorePcRelative : (0x33FB : Word) &&& 0xF000 = 0x3000 := by decide
theorem witness_StoreIndirect : (0xB201 : Word) &&& 0xF000 = 0xB000 := by decide
theorem witness_StoreBaseOffset : (0x7DBF : Word) &&& 0xF000 = 0x7000 := by decide
theorem witness_BranchOnCondition : (0x0FFF : Word) &&& 0xF000 = 0x0000 := by decide
theorem witness_JumpThroughRegister : (0xC1C0 : Word) &&& 0xF000 = 0xC000 ∧ (0xCEBF : Word) &&& 0xF000 = 0xC000 := by
  decide
theorem witness_CallPcRelative : (0x4C00 : Word) &&& 0xF800 = 0x4800 := by decide
theorem witness_CallThroughRegister : (0x47FF : Word) &&& 0xF800 = 0x4000 := by decide
theorem witness_RtiStopsWithInvalidOpcode : (0x8FFF : Word) &&& 0xF000 = 0x8000 := by decide
theorem witness_ReservedOpcodeStops :
    (0xD000 : Word) &&& 0xF000 = 0xD000 ∧ (at0 0xDFFF).run = .running ∧ (at0 0xDFFF).service = .none ∧
      field (at0 0xDFFF).fetch 12 4 = 0xD ∧ (at0 0x8000).run = .running ∧ (at0 0x8000).service = .none ∧
      field (at0 0x8000).fetch 12 4 = 0x8 := by decide
theorem witness_TrapDispatchesOnTheVector : (0xFF25 : Word) &&& 0xF000 = 0xF000 := by decide
theorem witness_UnsupportedVectorStops :
    (0xF024 : Word) &&& 0xF000 = 0xF000 ∧ field 0xF024 0 8 ∉ [(0x20 : Byte), 0x21, 0x22, 0x23, 0x25] ∧
      (at0 0xF024).run = .running ∧ (at0 0xF024).service = .none ∧ field (at0 0xF024).fetch 12 4 = 0xF ∧
      field (at0 0xF024).fetch 0 8 ∉ [(0x20 : Byte), 0x21, 0x22, 0x23, 0x25] := by decide
theorem witness_GetcReadsOneCharacter :
    (0xFF20 : Word) &&& 0xF0FF = 0xF020 ∧ (core0 0 [] .z [] [0x78]).cin = 0x78 :: [] ∧
      (at0 0).cin = [] ∧ (at0 0).run = .running := by decide
theorem witness_OutWritesTheLowByte : (0xFF21 : Word) &&& 0xF0FF = 0xF021 := by decide

/-- The string "Hi" at 0x3009, with R0 at it. -/
def hi : State := core0 0x3001 [(0, 0x3009)] .z [(0x3009, 0x48), (0x300A, 0x69)] []

theorem witness_PutsWritesTheString :
    (0xFF22 : Word) &&& 0xF0FF = 0xF022 ∧ hi.run = .running ∧
    (∀ (k : Nat) (h : k < [0x48, (0x69 : Byte)].length),
      (hi.mem.readWord (hi.gpr[(0 : RegIdx)] + BitVec.ofNat 16 k)).setWidth 8 = [0x48, (0x69 : Byte)][k] ∧
        [0x48, (0x69 : Byte)][k] ≠ 0) ∧
    (hi.mem.readWord (hi.gpr[(0 : RegIdx)] + BitVec.ofNat 16 2)).setWidth 8 = (0 : Byte) := by
  refine ⟨by decide, by decide, fun k h => ?_, by decide⟩
  match k, h with
  | 0, _ => exact ⟨rfl, by simp⟩
  | 1, _ => exact ⟨rfl, by simp⟩

/-- The word 0x0001 at `n` addresses from `lo` up. -/
def ones : Nat → Nat → List Host.Cell
  | _, 0 => []
  | lo, n + 1 => (2 * lo + 1, 1) :: ones (lo + 1) n

theorem ones_read (n lo a : Nat) (h : lo ≤ a) (h' : a < lo + n) : cellsRead (ones lo n) (2 * a + 1) = 1 := by
  induction n generalizing lo with
  | zero => omega
  | succ n ih =>
    by_cases hl : lo = a
    · simp [ones, cellsRead, hl]
    · have hne : ¬ 2 * lo + 1 = 2 * a + 1 := by omega
      simp only [ones, cellsRead, hne, if_false]
      exact ih (lo + 1) (by omega) (by omega)

theorem lowByte_of_bytes (x y : Byte) : (wordOfBytes x y).setWidth 8 = y := by
  apply BitVec.eq_of_getLsbD_eq
  intro i hi
  simp only [wordOfBytes, BitVec.getLsbD_setWidth, BitVec.getLsbD_append, hi, if_true, decide_true, Bool.true_and]

/-- A core whose memory holds 0x0001 everywhere. -/
def noTerminator : State := { at0 0 with mem := { cells := ones 0 65536 } }

theorem witness_PutsWithoutTerminatorNeverEnds :
    noTerminator.run = .running ∧ ∀ a : Word, (noTerminator.mem.readWord a).setWidth 8 ≠ (0 : Byte) := by
  refine ⟨by decide, fun a h => ?_⟩
  have e : noTerminator.mem.readByte (loByteAddr a) = 1 := ones_read 65536 0 a.toNat (by omega) (by have := a.isLt; omega)
  simp only [Memory.readWord, lowByte_of_bytes, e] at h
  exact absurd h (by decide)

theorem witness_InPromptsReadsAndEchoes :
    (0xFF23 : Word) &&& 0xF0FF = 0xF023 ∧ (core0 0 [] .z [] [0x71]).run = .running ∧
      (core0 0 [] .z [] [0x71]).cin = 0x71 :: [] := by decide
theorem witness_InWithoutInputWaitsAfterThePrompt : (at0 0).run = .running ∧ (at0 0).cin = [] := by decide
theorem witness_HaltStopsTheRun : (0xFF25 : Word) &&& 0xF0FF = 0xF025 := by decide
theorem witness_StepRunsTheDecodedInstruction : (at0 0x1283).run = .running ∧ (at0 0x1283).service = .none := by decide
theorem witness_BlockedReadWaitsAndResumes :
    (next (at0 0xF020)).run = .running ∧ (next (at0 0xF020)).cin = [] ∧ (next (at0 0xF020)).service = .getc ∧
    (State.setService (at0 0) .inRead).service = .inRead ∧ (State.setService (at0 0) .inRead).cin = [] := by decide
theorem witness_StoppedCoreStaysStopped :
    State.reset.run = .halted ∧ (next (at0 0xD000)).run = .faulted .invalidOpcode 0xD000 := by decide
theorem witness_OnlyHaltEntersHalted :
    (at0 0xF025).run = .running ∧ step (at0 0xF025) = .next (next (at0 0xF025)) ∧ (next (at0 0xF025)).run = .halted :=
  ⟨by decide, rfl, by decide⟩
theorem witness_FatalStopIsPrecise :
    (at0 0xF024).run = .running ∧ step (at0 0xF024) = .next (next (at0 0xF024)) ∧
      (next (at0 0xF024)).run = .faulted .unsupportedTrapVector 0xF024 := ⟨by decide, rfl, by decide⟩
theorem witness_OnlyStoresWriteMemory :
    exec (.st 0 0) (at0 0) = .next ((at0 0).store 0 0x3000) ∧
    (at0 0).storeOf (.st 0 0) = some (0x3000, 0) ∧ (at0 0).storeOf .halt = none ∧
    step (at0 0x3003) = .next (next (at0 0x3003)) ∧
    (at0 0x3003).advancePc.storeOf (at0 0x3003).instruction = some (0x3004, 0) :=
  ⟨rfl, by decide, by decide, rfl, by decide⟩
theorem witness_OnlyDestinationRegistersChange :
    exec (.lea 3 0) (at0 0) = .next ((at0 0).writeReg 3 0x3000 true) ∧
    step (at0 0x1283) = .next (next (at0 0x1283)) ∧ State.reset.run ≠ .running ∧
    (next (at0 0xF020)).service ≠ .none := ⟨rfl, rfl, by decide, by decide⟩
theorem witness_FlagFollowsItsTable :
    exec (.lea 3 0) (at0 0) = .next ((at0 0).writeReg 3 0x3000 true) ∧ writesFlag (.lea 3 0) = true ∧
    exec .halt (at0 0) = .next (at0 0).halt ∧ writesFlag .halt = false ∧
    (next (at0 0xF020)).service ≠ .none ∧ step (next (at0 0xF020)) = .next (next (at0 0xF020)) ∧
    (State.setService (at0 0) (.inEcho 0x71)).run = .running ∧
    (State.setService (at0 0) (.inEcho 0x71)).service = .inEcho 0x71 ∧
    (∃ t, step (State.setService (at0 0) (.inEcho 0x71)) = .next t) :=
  ⟨rfl, rfl, rfl, rfl, by decide, rfl, by decide, by decide, ⟨_, rfl⟩⟩
theorem witness_PcChangesOnlyInItsThreeWays :
    (at0 0x4801).run = .running ∧ (∃ t, step (at0 0x4801) = .next t) ∧ (at0 0x4801).service = .none ∧
    (next (at0 0xF020)).run = .running ∧ (next (at0 0xF020)).service ≠ .none :=
  ⟨by decide, ⟨_, rfl⟩, by decide, by decide, by decide⟩
theorem witness_OnlyTrapServicesTouchTheConsole :
    step (at0 0xF021) = .next (next (at0 0xF021)) ∧ (at0 0xF021).service = .none ∧
      (next (at0 0xF021)).cout = (at0 0xF021).cout ++ [0] := ⟨rfl, by decide, by decide⟩
theorem witness_OnlyBranchReadsTheFlag :
    step (at0 0x1283) = .next (next (at0 0x1283)) ∧
      ∀ n z p off, (at0 0x1283).instruction ≠ .br n z p off := by
  refine ⟨rfl, fun n z p off h => ?_⟩
  have e : (at0 0x1283).instruction = .addReg 1 2 3 := by decide
  rw [e] at h
  cases h
theorem witness_UnreadInputBearsOnNoOtherStep :
    step (at0 0x1283) = .next (next (at0 0x1283)) ∧ (at0 0x1283).service = .none ∧
      (at0 0x1283).instruction ≠ .getc ∧ (at0 0x1283).instruction ≠ .inChar :=
  ⟨rfl, by decide, by decide, by decide⟩
theorem witness_StoredWordIsTheNextInstruction :
    (at0 0x3000).run = .running ∧ (at0 0x3000).service = .none ∧
      (at0 0x3000).advancePc.storeOf (at0 0x3000).instruction = some ((at0 0x3000).pc + 1, 0) := by decide
theorem witness_StepKeepsTheInvariant :
    (at0 0x3003).inv = true ∧ step (at0 0x3003) = .next (next (at0 0x3003)) := ⟨by decide, rfl⟩
theorem witness_ResetMeetsTheInvariant : ResetParams.named.mem.wf = true := by decide
theorem witness_HostKeepsTheInvariant :
    ResetParams.named.mem.wf = true ∧
      State.launch ResetParams.named none = .next (State.reset.raiseFatal .fileOpen 0) ∧ State.reset.inv = true :=
  ⟨by decide, rfl, by decide⟩
theorem witness_CanonicalMemoriesAreExtensional : (at0 0x1283).mem.wf = true ∧ State.reset.mem.wf = true := by decide
theorem witness_ObjectFileIsBigEndianWords :
    parseObject [0x30, 0, 0xE0, 0x0A, 0x24, 0x08] = some (0x3000, [0xE00A, 0x2408]) := by decide
theorem witness_LaunchLeavesTheResetState :
    [(0x1234 : Word)].length ≤ 65536 - (0xFFFF : Word).toNat ∧ ([] : List Word).length ≤ 65536 - (0 : Word).toNat := by
  decide
theorem witness_FailedLaunchNeverRuns :
    65536 - (0xFFFF : Word).toNat < [(0x1234 : Word), 0x5678].length ∧ [(0x30 : Byte)].length < 2 ∧
      [(0x30 : Byte), 0, 0xE0].length % 2 = 1 := by decide
theorem witness_HostRunStartsOnlyAHaltedCore : State.reset.run = .halted ∧ (at0 0).run ≠ .halted := by decide

end Sys2Proof.Tests
end

section
/-! PROOFS of 00_scope.md: sign extension (R12). The XOR flips the sign bit of the field, which adds `2 ^ (N - 1)` to a
field that is not negative and takes `2 ^ (N - 1)` from a negative one; the subtraction then leaves the field, or the
field less `2 ^ N`. -/

namespace Sys2Proof.Machine

/-! ### Flipping the sign bit -/

/-- XOR with a bit above a number sets that bit. -/
theorem xor_twoPow_of_lt {r k : Nat} (h : r < 2 ^ k) : r ^^^ 2 ^ k = r + 2 ^ k := by
  rw [← Nat.or_two_pow_eq_add_of_lt h]
  apply Nat.eq_of_testBit_eq
  intro i
  by_cases hi : k = i
  · subst hi
    simp [Nat.testBit_lt_two_pow h]
  · simp [Nat.testBit_two_pow_of_ne hi]

/-- XOR with the top bit that is set clears it. -/
theorem xor_twoPow_of_le {m k : Nat} (hle : 2 ^ k ≤ m) (hlt : m < 2 ^ (k + 1)) : m ^^^ 2 ^ k = m - 2 ^ k := by
  have hrest : m - 2 ^ k < 2 ^ k := by rw [Nat.pow_succ] at hlt; omega
  calc m ^^^ 2 ^ k
      = ((m - 2 ^ k) ^^^ 2 ^ k) ^^^ 2 ^ k := by rw [xor_twoPow_of_lt hrest, Nat.sub_add_cancel hle]
    _ = m - 2 ^ k := by rw [Nat.xor_assoc, Nat.xor_self, Nat.xor_zero]

/-! ### `sext` -/

/-- A sign bit of R12 is a bit of a word. -/
theorem signBit_lt {n : Nat} (hpos : 0 < n) (hle : n ≤ 16) : 2 ^ (n - 1) < 2 ^ 16 :=
  Nat.pow_lt_pow_right (by omega) (by omega)

/-- `signBit = 1 << (N - 1)` loses no bit in a word. -/
theorem toNat_signBit {n : Nat} (hpos : 0 < n) (hle : n ≤ 16) :
    (((1 : Nat) <<< (n - 1) : Nat) : Word).toNat = 2 ^ (n - 1) := by
  rw [BitVec.natCast_eq_ofNat, BitVec.toNat_ofNat, Nat.one_shiftLeft, Nat.mod_eq_of_lt (signBit_lt hpos hle)]

/-- The source's formula of R12 on numbers. -/
theorem sext_eq_ofNat {n : Nat} (v : BitVec n) (hpos : 0 < n) (hle : n ≤ 16) :
    sext v = BitVec.ofNat 16 ((v.toNat ^^^ 2 ^ (n - 1)) + 65536 - 2 ^ (n - 1)) := by
  have hbit := signBit_lt hpos hle
  apply BitVec.eq_of_toNat_eq
  rw [sext, BitVec.toNat_sub, BitVec.toNat_xor, toNat_signBit hpos hle, BitVec.toNat_setWidth_of_le hle,
    BitVec.toNat_ofNat]
  congr 1
  omega

/-- The source's formula is the sign extension of the library. -/
theorem sext_eq_signExtend {n : Nat} (v : BitVec n) (hpos : 0 < n) (hle : n ≤ 16) : sext v = v.signExtend 16 := by
  obtain ⟨k, rfl⟩ : ∃ k, n = k + 1 := ⟨n - 1, by omega⟩
  have hv : v.toNat < 2 ^ (k + 1) := v.isLt
  have hpow : 2 ^ (k + 1) = 2 * 2 ^ k := Nat.pow_succ'
  have hword : 2 ^ (k + 1) ≤ 2 ^ 16 := Nat.pow_le_pow_right (by omega) hle
  apply BitVec.eq_of_toNat_eq
  rw [sext_eq_ofNat v hpos hle, BitVec.toNat_ofNat, BitVec.toNat_signExtend, BitVec.toNat_setWidth_of_le hle,
    BitVec.msb_eq_decide, Nat.add_sub_cancel]
  by_cases hneg : 2 ^ k ≤ v.toNat
  · rw [xor_twoPow_of_le hneg hv, if_pos (by simpa using hneg)]
    omega
  · rw [xor_twoPow_of_lt (Nat.lt_of_not_le hneg), if_neg (by simpa using hneg)]
    omega

/-- The word holds the field's two's-complement value. -/
theorem toInt_sext {n : Nat} (v : BitVec n) (hpos : 0 < n) (hle : n ≤ 16) : (sext v).toInt = v.toInt := by
  rw [sext_eq_signExtend v hpos hle, BitVec.toInt_signExtend_of_le hle]

/-- Settles O6: the formula on numbers, and the signed value by way of the library's sign extension. -/
theorem signExtensionIsTwosComplement : Obligations.SignExtensionIsTwosComplement := by
  unfold Obligations.SignExtensionIsTwosComplement
  refine ⟨fun n v hpos hle => ⟨toInt_sext v hpos hle, sext_eq_ofNat v hpos hle⟩, ?zero, ?byte⟩
  case zero =>
    intro n v hle
    exact BitVec.toNat_setWidth_of_le hle
  case byte =>
    intro b
    rfl

end Sys2Proof.Machine
end

section
/-! PROOFS of 10_state.md, the flag (R24): the flag function is the sign of the two's-complement reading, whose negative
values are the words with bit 15 set. -/

namespace Sys2Proof.Machine

/-- R10: a word is negative exactly where its top bit is set. -/
theorem toInt_neg_iff_topBit (v : Word) : v.toInt < 0 ↔ v.getLsbD 15 = true := by
  have hmsb : v.msb = v.getLsbD 15 := BitVec.msb_eq_getLsbD_last v
  rw [← hmsb, BitVec.msb_eq_toInt, decide_eq_true_eq]

/-- R24: the flag function, read by the sign of the value. -/
theorem setCC_eq_signFlag (v : Word) : setCC v = signFlag v := by
  unfold setCC signFlag
  by_cases hzero : v = 0#16
  · simp [hzero]
  · have hne : v.toInt ≠ 0 := fun h => hzero (BitVec.eq_of_toInt_eq h)
    simp [hzero, hne, toInt_neg_iff_topBit]

theorem signFlag_eq_n (v : Word) : signFlag v = .n ↔ v.toInt < 0 := by
  unfold signFlag
  split_ifs with hneg hzero
  · exact iff_of_true rfl hneg
  · exact iff_of_false (by decide) hneg
  · exact iff_of_false (by decide) hneg

theorem signFlag_eq_p (v : Word) : signFlag v = .p ↔ 0 < v.toInt := by
  unfold signFlag
  split_ifs with hneg hzero
  · exact iff_of_false (by decide) (by omega)
  · exact iff_of_false (by decide) (by omega)
  · exact iff_of_true rfl (by omega)

/-- Settles O9: the flag function is the sign flag, and the sign is bit 15. -/
theorem flagIsTheSignOfTheValue : Obligations.FlagIsTheSignOfTheValue := by
  unfold Obligations.FlagIsTheSignOfTheValue
  intro v
  have hn : setCC v = .n ↔ v.toInt < 0 := by rw [setCC_eq_signFlag, signFlag_eq_n]
  have hp : setCC v = .p ↔ 0 < v.toInt := by rw [setCC_eq_signFlag, signFlag_eq_p]
  exact ⟨setCC_eq_z v, hn, hp, hn.trans (toInt_neg_iff_topBit v)⟩

end Sys2Proof.Machine
end

section
/-! PROOFS of 10_state.md, the PC (R27, R28): the PC that each meaning leaves, as a function of the state the meaning is
given, and that no service's substep touches it. -/

namespace Sys2Proof.Machine

/-! ### Services (R162) -/

/-- R28, R162: a substep leaves the PC. -/
@[simp] theorem State.serviceStep_pc (s : State) : s.serviceStep.pc = s.pc := by
  rcases s.serviceStep_cases with
    ⟨-, e⟩ | ⟨-, -, e⟩ | ⟨_, _, -, -, e⟩ | ⟨_, -, -, e⟩ | ⟨_, -, -, e⟩ | ⟨_, _, -, e⟩ | ⟨_, _, -, -, e⟩ | ⟨_, -, e⟩
  all_goals rw [e]

/-- R160: so does the first substep, in the step of the TRAP. -/
@[simp] theorem State.beginService_pc (s : State) (v : Service) : (s.beginService v).pc = s.pc :=
  State.serviceStep_pc (s.setService v)

/-- R160, R168: every way the dispatcher can go. -/
theorem execTrap_cases (unused : BitVec 4) (v : Byte) (s t : State) (h : execTrap unused v s = .next t) :
    (v = Config.vecGetc ∧ t = s.serviceGetc) ∨ (v = Config.vecOut ∧ t = s.serviceOut) ∨
    (v = Config.vecPuts ∧ t = s.servicePuts) ∨ (v = Config.vecIn ∧ t = s.serviceIn) ∨
    (v = Config.vecHalt ∧ t = s.serviceHalt) ∨
    (definedVector v = false ∧ t = s.raiseFatal .unsupportedTrapVector (encode (.trap unused v))) := by
  unfold execTrap at h
  split_ifs at h with hgetc hout hputs hin hhalt
  all_goals obtain rfl := Host.Outcome.next.inj h
  · exact .inl ⟨hgetc, rfl⟩
  · exact .inr (.inl ⟨hout, rfl⟩)
  · exact .inr (.inr (.inl ⟨hputs, rfl⟩))
  · exact .inr (.inr (.inr (.inl ⟨hin, rfl⟩)))
  · exact .inr (.inr (.inr (.inr (.inl ⟨hhalt, rfl⟩))))
  · exact .inr (.inr (.inr (.inr (.inr ⟨by simp [definedVector, hgetc, hout, hputs, hin, hhalt], rfl⟩))))

/-- R162, R168: neither a service's beginning nor the fatal stop touches the PC. -/
theorem execTrap_pc (unused : BitVec 4) (v : Byte) (s t : State) (h : execTrap unused v s = .next t) :
    t.pc = s.pc := by
  rcases execTrap_cases unused v s t h with
    ⟨-, rfl⟩ | ⟨-, rfl⟩ | ⟨-, rfl⟩ | ⟨-, rfl⟩ | ⟨-, rfl⟩ | ⟨-, rfl⟩
  · exact s.beginService_pc _
  · rfl
  · exact s.beginService_pc _
  · exact s.beginService_pc _
  · rfl
  · rfl

/-! ### The PC after a meaning (R28) -/

/-- R28: the PC that an instruction's meaning leaves, from the state it is given: a taken branch and JSR add their
offset, JMP, RET and JSRR take a register (JSRR after its write of R7, D13), and nothing else sets it. -/
def State.pcAfter (s : State) : Instr → Word
  | .br n z p off => if branchTaken n z p s.cond then s.pcRelative off else s.pc
  | .jsr off => s.pcRelative off
  | .jmp r => s.readReg r
  | .ret => s.readReg 7
  | .jsrr r => if r = 7 then s.pc else s.readReg r
  | _ => s.pc

/-- R120: a PC-relative address by the library's sign extension. -/
theorem State.pcRelative_eq_signExtend (s : State) {n : Nat} (off : BitVec n) (hpos : 0 < n) (hle : n ≤ 16) :
    s.pcRelative off = s.pc + off.signExtend 16 := by
  rw [State.pcRelative, sext_eq_signExtend off hpos hle]

/-- R28: `pcAfter` is the PC of the model's own next state, for every instruction. -/
theorem exec_pc (i : Instr) (s t : State) (h : exec i s = .next t) : t.pc = s.pcAfter i := by
  cases i with
  | br n z p off =>
    obtain rfl := Host.Outcome.next.inj h
    exact apply_ite State.pc _ _ _
  | jsrr r =>
    obtain rfl := Host.Outcome.next.inj h
    exact s.link_readReg r
  | trap unused v => exact execTrap_pc unused v s t h
  | getc | puts | inChar =>
    obtain rfl := Host.Outcome.next.inj h
    exact s.beginService_pc _
  | _ =>
    obtain rfl := Host.Outcome.next.inj h
    rfl

/-- Settles O46: a substep leaves the PC; between instructions it is `pcAfter` of the incremented PC, of which only the
five control forms are not that PC itself. JSRR R7 reads back the return address, which is the incremented PC. -/
theorem pcChangesOnlyInItsThreeWays : Obligations.PcChangesOnlyInItsThreeWays := by
  unfold Obligations.PcChangesOnlyInItsThreeWays
  intro s t hrun hstep
  refine ⟨fun hs => ?service, fun hs => ?boundary⟩
  case service =>
    rw [step_of_service s hrun hs] at hstep
    obtain rfl := Host.Outcome.next.inj hstep
    exact s.serviceStep_pc
  case boundary =>
    rw [step_of_boundary s hrun hs] at hstep
    have hpc : t.pc = s.advancePc.pcAfter s.instruction := exec_pc _ _ _ hstep
    cases hi : s.instruction with
    | br n z p off =>
      rw [hi, State.pcAfter, State.pcRelative_eq_signExtend _ off (by decide) (by decide)] at hpc
      split at hpc
      · exact .inr (.inl ⟨n, z, p, off, rfl, hpc⟩)
      · exact .inl hpc
    | jsr off =>
      rw [hi, State.pcAfter, State.pcRelative_eq_signExtend _ off (by decide) (by decide)] at hpc
      exact .inr (.inr (.inl ⟨off, rfl, hpc⟩))
    | jmp r =>
      rw [hi] at hpc
      exact .inr (.inr (.inr (.inl ⟨r, rfl, hpc⟩)))
    | ret =>
      rw [hi] at hpc
      exact .inr (.inr (.inr (.inr (.inl ⟨rfl, hpc⟩))))
    | jsrr r =>
      rw [hi, State.pcAfter] at hpc
      split at hpc
      next => exact .inl hpc
      next hne => exact .inr (.inr (.inr (.inr (.inr ⟨r, rfl, hne, hpc⟩))))
    | _ =>
      rw [hi] at hpc
      exact .inl hpc

end Sys2Proof.Machine
end

section
/-! PROOFS of 20_memory.md, the object file (R62): the words of a list of bytes and the bytes of a list of words, and the
object file as the first word and the rest. -/

namespace Sys2Proof.Machine

/-! ### The words of a list of bytes -/

/-- R62: the first of two bytes is the high one. -/
theorem toNat_wordOfBytes (hi lo : Byte) : (wordOfBytes hi lo).toNat = hi.toNat * 256 + lo.toNat := by
  have hshift : hi.toNat <<< 8 = hi.toNat * 256 := Nat.shiftLeft_eq _ _
  rw [wordOfBytes, BitVec.toNat_append, ← Nat.shiftLeft_add_eq_or_of_lt lo.isLt, hshift]

/-- A list of at least two bytes has words exactly where the bytes after the first two have. -/
theorem wordsOfBytes_cons_cons_eq_some {hi lo : Byte} {rest : List Byte} {ws : List Word} :
    wordsOfBytes (hi :: lo :: rest) = some ws ↔
      ∃ ws', wordsOfBytes rest = some ws' ∧ wordOfBytes hi lo :: ws' = ws := by
  rw [wordsOfBytes, Option.map_eq_some_iff]

/-- A byte is left over exactly where the number of bytes is odd. -/
theorem wordsOfBytes_eq_none_iff (file : List Byte) : wordsOfBytes file = none ↔ file.length % 2 = 1 := by
  induction file using wordsOfBytes.induct with
  | case1 => simp [wordsOfBytes]
  | case2 b => simp [wordsOfBytes]
  | case3 hi lo rest ih =>
    rw [wordsOfBytes, Option.map_eq_none_iff, ih, List.length_cons, List.length_cons]
    omega

theorem length_of_wordsOfBytes {file : List Byte} {ws : List Word} (h : wordsOfBytes file = some ws) :
    file.length = 2 * ws.length := by
  induction file using wordsOfBytes.induct generalizing ws with
  | case1 => obtain rfl := Option.some.inj h; rfl
  | case2 b => exact absurd h (Option.some_ne_none ws).symm
  | case3 hi lo rest ih =>
    obtain ⟨ws', hrest, rfl⟩ := wordsOfBytes_cons_cons_eq_some.mp h
    have hlen := ih hrest
    simp only [List.length_cons]
    omega

/-- Word `k` stands in bytes `2k` and `2k + 1`, the high byte first. -/
theorem toNat_getElem_of_wordsOfBytes {file : List Byte} {ws : List Word} (h : wordsOfBytes file = some ws)
    (k : Nat) (hk : k < ws.length) :
    ws[k].toNat = (file.getD (2 * k) 0).toNat * 256 + (file.getD (2 * k + 1) 0).toNat := by
  induction file using wordsOfBytes.induct generalizing ws k with
  | case1 => obtain rfl := Option.some.inj h; exact absurd hk (Nat.not_lt_zero k)
  | case2 b => exact absurd h (Option.some_ne_none ws).symm
  | case3 hi lo rest ih =>
    obtain ⟨ws', hrest, rfl⟩ := wordsOfBytes_cons_cons_eq_some.mp h
    cases k with
    | zero => exact toNat_wordOfBytes hi lo
    | succ k => exact ih hrest k (Nat.lt_of_succ_lt_succ hk)

/-- The bytes of a list of words read back as those words. -/
theorem wordsOfBytes_flatMap_wordBytes (ws : List Word) : wordsOfBytes (ws.flatMap wordBytes) = some ws := by
  induction ws with
  | nil => rfl
  | cons w ws ih => exact wordsOfBytes_cons_cons_eq_some.mpr ⟨ws, ih, by rw [wordOfBytes_fields]⟩

/-! ### The object file -/

/-- R62: an admitted file's words are its origin and then its data. -/
theorem parseObject_eq_some_iff {file : List Byte} {origin : Word} {data : List Word} :
    parseObject file = some (origin, data) ↔ wordsOfBytes file = some (origin :: data) := by
  unfold parseObject
  rcases wordsOfBytes file with _ | _ | ⟨w, ws⟩ <;> simp

/-- A file is refused where it has no words: a byte is left over, or there is no origin. -/
theorem parseObject_eq_none_iff {file : List Byte} :
    parseObject file = none ↔ wordsOfBytes file = none ∨ wordsOfBytes file = some [] := by
  unfold parseObject
  rcases wordsOfBytes file with _ | _ | ⟨w, ws⟩ <;> simp

theorem wordsOfBytes_eq_some_nil_iff {file : List Byte} : wordsOfBytes file = some [] ↔ file.length = 0 := by
  refine ⟨length_of_wordsOfBytes, fun h => ?_⟩
  rw [List.eq_nil_of_length_eq_zero h, wordsOfBytes]

/-- Settles O56: the file is the words of its bytes, of which the first is the origin, so word `k` of the image is word
`k + 1` of the file. -/
theorem objectFileIsBigEndianWords : Obligations.ObjectFileIsBigEndianWords := by
  unfold Obligations.ObjectFileIsBigEndianWords
  refine ⟨fun file => ?refused, fun file origin data h => ?admitted, fun origin data => ?roundTrip⟩
  case refused =>
    rw [parseObject_eq_none_iff, wordsOfBytes_eq_none_iff, wordsOfBytes_eq_some_nil_iff]
    omega
  case admitted =>
    have hwords : wordsOfBytes file = some (origin :: data) := parseObject_eq_some_iff.mp h
    refine ⟨length_of_wordsOfBytes hwords, toNat_getElem_of_wordsOfBytes hwords 0 (Nat.zero_lt_succ _),
      fun k hk => ?_⟩
    have hword := toNat_getElem_of_wordsOfBytes hwords (k + 1) (Nat.succ_lt_succ hk)
    rwa [show 2 * (k + 1) = 2 + 2 * k by omega, show 2 + 2 * k + 1 = 3 + 2 * k by omega] at hword
  case roundTrip =>
    exact parseObject_eq_some_iff.mpr (wordsOfBytes_flatMap_wordBytes (origin :: data))

end Sys2Proof.Machine
end

section
/-! PROOFS of 30_encoding.md, the encodings that do not execute (R84): the run state that each meaning leaves, as a
function of the instruction, and the fatal kind of the decoded instruction, as a function of the word's opcode and
vector. -/

namespace Sys2Proof

/-! ### The fatal kind of an instruction (R168, R201, R202) -/

/-- R201, R202: the kind of the fatal stop that an instruction's meaning is, if it is one. -/
def Instr.faultKind : Instr → Option Machine.FaultKind
  | .rti _ => some .invalidOpcode
  | .reserved _ => some .invalidOpcode
  | .trap _ v => if definedVector v then none else some .unsupportedTrapVector
  | _ => none

/-- R167: whether an instruction's meaning is `halt()`. A TRAP term of a service is that service's (log 16). -/
def Instr.halts : Instr → Bool
  | .halt => true
  | .trap _ v => v == Config.vecHalt
  | _ => false

/-- R160: the five vectors as numbers. -/
theorem definedVector_iff_mem (v : Byte) :
    definedVector v = true ↔ v ∈ [(0x20 : Byte), 0x21, 0x22, 0x23, 0x25] := by
  simp [definedVector, Config.vecGetc, Config.vecOut, Config.vecPuts, Config.vecIn, Config.vecHalt, or_assoc]

/-! ### The fatal kind of a decoded word (R84) -/

/-- R80: the opcode is the four bits the decoder looks at. -/
theorem field_opcode (w : Word) :
    field w 12 4 = BitVec.ofBool (bitAt w 15) ++ BitVec.ofBool (bitAt w 14) ++ BitVec.ofBool (bitAt w 13) ++
      BitVec.ofBool (bitAt w 12) := by
  refine BitVec.eq_of_getLsbD_eq (w := 1 + 1 + 1 + 1) fun i hi => ?_
  simp only [BitVec.getLsbD_append, BitVec.getLsbD_ofBool]
  match i, hi with
  | 0, _ | 1, _ | 2, _ | 3, _ => simp [field, bitAt]

/-- R142: opcode 0xC is no fatal stop, whatever its base. -/
theorem faultKind_decodeJump (r : RegIdx) : (decodeJump r).faultKind = none := by
  unfold decodeJump
  split_ifs <;> rfl

/-- R168: a word of opcode 0xF is a fatal stop exactly where its vector is none of the five. -/
theorem faultKind_decodeTrap (unused : BitVec 4) (v : Byte) :
    (decodeTrap unused v).faultKind = if definedVector v then none else some .unsupportedTrapVector := by
  cases hv : definedVector v with
  | false => rw [decodeTrap_of_undefined unused v hv, Instr.faultKind, hv]
  | true =>
    have hmem := (definedVector_iff_mem v).mp hv
    simp only [List.mem_cons, List.not_mem_nil, or_false] at hmem
    rcases hmem with rfl | rfl | rfl | rfl | rfl <;> rfl

/-- R84: the fatal kind of a word, by its opcode, and for opcode 0xF by its vector. -/
theorem faultKind_decodeWord (w : Word) :
    (decodeWord w).faultKind =
      if field w 12 4 = 0xD ∨ field w 12 4 = 0x8 then some .invalidOpcode
      else if field w 12 4 = 0xF then (if definedVector (field w 0 8) then none else some .unsupportedTrapVector)
      else none := by
  rw [field_opcode]
  unfold decodeWord
  split
  all_goals
    rename_i h15 h14 h13 h12
    rw [h15, h14, h13, h12]
  -- By opcode: ADD (0x1) and AND (0x5) test w[5], 0x4 tests w[11], 0xC is JMP and RET, 0xF is TRAP.
  case h_2 | h_6 => cases bitAt w 5 <;> rfl
  case h_5 => cases bitAt w 11 <;> rfl
  case h_13 => exact faultKind_decodeJump _
  case h_16 => exact faultKind_decodeTrap _ _
  all_goals rfl

end Sys2Proof

namespace Sys2Proof.Machine

/-! ### The run state after a meaning (R30, R200) -/

/-- R162: a substep leaves the run state. -/
@[simp] theorem State.serviceStep_run (s : State) : s.serviceStep.run = s.run := by
  rcases s.serviceStep_cases with
    ⟨-, e⟩ | ⟨-, -, e⟩ | ⟨_, _, -, -, e⟩ | ⟨_, -, -, e⟩ | ⟨_, -, -, e⟩ | ⟨_, _, -, e⟩ | ⟨_, _, -, -, e⟩ | ⟨_, -, e⟩
  all_goals rw [e]

/-- R160: so does the first substep, in the step of the TRAP. -/
@[simp] theorem State.beginService_run (s : State) (v : Service) : (s.beginService v).run = s.run :=
  State.serviceStep_run (s.setService v)

/-- R30, R200: the run state that an instruction's meaning leaves: the fatal stop with the instruction's word as info,
Halted, or what it was. -/
def State.runAfter (s : State) (i : Instr) : RunState :=
  match i.faultKind with
  | some kind => .faulted kind (encode i)
  | none => if i.halts then .halted else s.run

/-- R160, R167, R168: the dispatcher leaves the run state of `runAfter`. -/
theorem execTrap_run (unused : BitVec 4) (v : Byte) (s t : State) (h : execTrap unused v s = .next t) :
    t.run = s.runAfter (.trap unused v) := by
  rcases execTrap_cases unused v s t h with
    ⟨rfl, rfl⟩ | ⟨rfl, rfl⟩ | ⟨rfl, rfl⟩ | ⟨rfl, rfl⟩ | ⟨rfl, rfl⟩ | ⟨hv, rfl⟩
  · exact s.beginService_run _
  · rfl
  · exact s.beginService_run _
  · exact s.beginService_run _
  · rfl
  · simp [State.runAfter, Instr.faultKind, hv]

/-- R30, R200: `runAfter` is the run state of the model's own next state, for every instruction. -/
theorem exec_run (i : Instr) (s t : State) (h : exec i s = .next t) : t.run = s.runAfter i := by
  cases i with
  | br n z p off =>
    obtain rfl := Host.Outcome.next.inj h
    exact (apply_ite State.run _ _ _).trans (ite_self _)
  | trap unused v => exact execTrap_run unused v s t h
  | getc | puts | inChar =>
    obtain rfl := Host.Outcome.next.inj h
    exact s.beginService_run _
  | _ =>
    obtain rfl := Host.Outcome.next.inj h
    rfl

/-- R83: every instruction has a meaning, in every state. -/
theorem exec_total (i : Instr) (s : State) : ∃ t, exec i s = .next t := by
  cases i with
  | trap unused v =>
    change ∃ t, execTrap unused v s = .next t
    unfold execTrap
    split_ifs <;> exact ⟨_, rfl⟩
  | _ => exact ⟨_, rfl⟩

/-- R200: from a Running core, a meaning enters the fatal stop exactly where the instruction has a fatal kind. -/
theorem exec_faulted_iff (i : Instr) (s : State) (kind : FaultKind) (hrun : s.run = .running) :
    (∃ t info, exec i s = .next t ∧ t.run = .faulted kind info) ↔ i.faultKind = some kind := by
  constructor
  · rintro ⟨t, info, hexec, ht⟩
    rw [exec_run i s t hexec, State.runAfter, hrun] at ht
    cases hk : i.faultKind with
    | some k =>
      rw [hk] at ht
      rw [(RunState.faulted.inj ht).1]
    | none =>
      rw [hk] at ht
      split_ifs at ht
  · intro hk
    obtain ⟨t, hexec⟩ := exec_total i s
    exact ⟨t, encode i, hexec, by rw [exec_run i s t hexec, State.runAfter, hk]⟩

/-! ### BR that asks for no flag (R84, R140) -/

/-- R140: a branch that asks for no flag is never taken. -/
theorem branchTaken_none (c : Cond) : branchTaken false false false c = false := by
  cases c <;> rfl

/-- Settles O5: the meaning's run state is that of the instruction's fatal kind, and the decoded instruction's fatal kind
is a function of the opcode and the vector. -/
theorem invalidEncodingsAreExactlyThese : Obligations.InvalidEncodingsAreExactlyThese := by
  unfold Obligations.InvalidEncodingsAreExactlyThese
  refine ⟨fun w kind s hrun => ?stops, fun off s => ?noOp⟩
  case stops =>
    rw [exec_faulted_iff _ s kind hrun, faultKind_decodeWord, ← definedVector_iff_mem]
    split_ifs with hinvalid htrap hdefined
    · have hne : field w 12 4 ≠ 0xF := by rcases hinvalid with h | h <;> rw [h] <;> decide
      simp only [hinvalid, hne, Option.some.injEq, @eq_comm _ _ kind, and_true, false_and, and_false, or_false]
    · simp only [hinvalid, hdefined, not_true, and_false, or_false]
    · simp only [hinvalid, Option.some.injEq, @eq_comm _ _ kind, and_false, false_or, iff_self_and]
      exact fun _ => ⟨htrap, hdefined⟩
    · simp only [hinvalid, htrap, false_and, and_false, or_false]
  case noOp =>
    change execBr false false false off s = .next s
    rw [execBr, branchTaken_none, if_neg Bool.false_ne_true]

end Sys2Proof.Machine
end

section
/-! PROOFS of 40_operate.md: the ALU (R105) and the operate instructions (R100 to R104). A word of a row of the opcode
table has the row's bits wherever the row's mask has one, which is all the decoder looks at; the meanings are one shared
operation, `State.operate`, which is a register write with the flag of the written value. -/

namespace Sys2Proof

/-! ### The words of the operate rows (R76, R87) -/

/-- R87: a word that has a value under a mask has the value's bit wherever the mask has a one. -/
theorem bitAt_of_match {w m v : Word} (h : w &&& m = v) (i : Nat) (hm : bitAt m i = true) :
    bitAt w i = bitAt v i := by
  have hbit : bitAt (w &&& m) i = (bitAt w i && bitAt m i) := BitVec.getLsbD_and
  rw [← h, hbit, hm, Bool.and_true]

theorem decodeWord_addReg {w : Word} (h : w &&& 0xF020 = 0x1000) :
    decodeWord w = .addReg (fieldDR w) (fieldSR1 w) (fieldSR2 w) := by
  have hbit := bitAt_of_match h
  rw [decodeWord, hbit 15 rfl, hbit 14 rfl, hbit 13 rfl, hbit 12 rfl, hbit 5 rfl]
  rfl

theorem decodeWord_addImm {w : Word} (h : w &&& 0xF020 = 0x1020) :
    decodeWord w = .addImm (fieldDR w) (fieldSR1 w) (field w 0 5) := by
  have hbit := bitAt_of_match h
  rw [decodeWord, hbit 15 rfl, hbit 14 rfl, hbit 13 rfl, hbit 12 rfl, hbit 5 rfl]
  rfl

theorem decodeWord_andReg {w : Word} (h : w &&& 0xF020 = 0x5000) :
    decodeWord w = .andReg (fieldDR w) (fieldSR1 w) (fieldSR2 w) := by
  have hbit := bitAt_of_match h
  rw [decodeWord, hbit 15 rfl, hbit 14 rfl, hbit 13 rfl, hbit 12 rfl, hbit 5 rfl]
  rfl

theorem decodeWord_andImm {w : Word} (h : w &&& 0xF020 = 0x5020) :
    decodeWord w = .andImm (fieldDR w) (fieldSR1 w) (field w 0 5) := by
  have hbit := bitAt_of_match h
  rw [decodeWord, hbit 15 rfl, hbit 14 rfl, hbit 13 rfl, hbit 12 rfl, hbit 5 rfl]
  rfl

theorem decodeWord_not {w : Word} (h : w &&& 0xF000 = 0x9000) :
    decodeWord w = .not (fieldDR w) (fieldSR1 w) := by
  have hbit := bitAt_of_match h
  rw [decodeWord, hbit 15 rfl, hbit 14 rfl, hbit 13 rfl, hbit 12 rfl]
  rfl

/-- R76, R104: NOT's register fields lie above bits 5:0, which keep the ones of the format. -/
theorem field_encode_not (dr sr1 : RegIdx) : field (encode (.not dr sr1)) 0 6 = 0b111111 := by
  have hdr : field (putField (regBits dr) 9) 0 6 = 0 := field_putField_apart _ _ _ _ (by decide)
  have hsr1 : field (putField (regBits sr1) 6) 0 6 = 0 := field_putField_apart _ _ _ _ (by decide)
  rw [encode, field_or, field_or, hdr, hsr1]
  rfl

end Sys2Proof

namespace Sys2Proof.Machine

/-! ### The ALU (R105) -/

/-- Settles O8: each operation is the library's on 16-bit words, read as a number. -/
theorem aluComputesItsThreeOperations : Obligations.AluComputesItsThreeOperations := by
  unfold Obligations.AluComputesItsThreeOperations
  exact fun a b => ⟨BitVec.toNat_add a b, BitVec.toNat_and a b, BitVec.toNat_not⟩

/-! ### The meanings (R100 to R104) -/

/-- R22, R24: an operate instruction writes DR and the flag, the sign of what DR gets, and nothing else. -/
theorem State.operate_eq_signFlag (s : State) (op : AluOp) (dr : RegIdx) (a b : Word) :
    s.operate op dr a b = { s with gpr := s.gpr.set dr (alu op a b), cond := signFlag (alu op a b) } := by
  rw [State.operate_eq, setCC_eq_signFlag]

theorem exec_addReg (dr sr1 sr2 : RegIdx) (s : State) :
    exec (.addReg dr sr1 sr2) s = .next (s.operate .add dr (s.readReg sr1) (s.readReg sr2)) := rfl

theorem exec_andReg (dr sr1 sr2 : RegIdx) (s : State) :
    exec (.andReg dr sr1 sr2) s = .next (s.operate .and dr (s.readReg sr1) (s.readReg sr2)) := rfl

theorem exec_not (dr sr1 : RegIdx) (s : State) :
    exec (.not dr sr1) s = .next (s.operate .not dr (s.readReg sr1) 0) := rfl

/-- R12, R101: the right operand by the library's sign extension. -/
theorem exec_addImm (dr sr1 : RegIdx) (imm5 : BitVec 5) (s : State) :
    exec (.addImm dr sr1 imm5) s = .next (s.operate .add dr (s.readReg sr1) (imm5.signExtend 16)) := by
  rw [← sext_eq_signExtend imm5 (by decide) (by decide)]
  rfl

/-- R12, R103: the right operand by the library's sign extension. -/
theorem exec_andImm (dr sr1 : RegIdx) (imm5 : BitVec 5) (s : State) :
    exec (.andImm dr sr1 imm5) s = .next (s.operate .and dr (s.readReg sr1) (imm5.signExtend 16)) := by
  rw [← sext_eq_signExtend imm5 (by decide) (by decide)]
  rfl

/-- Settles O10: both sources are read in the given state, as arguments of the one write. -/
theorem addRegisterForm : Obligations.AddRegisterForm := by
  unfold Obligations.AddRegisterForm
  refine ⟨fun w h => decodeWord_addReg h, by decide, fun dr sr1 sr2 s => ?meaning⟩
  case meaning =>
    rw [exec_addReg, State.operate_eq_signFlag]
    rfl

/-- Settles O11: the immediate is sign-extended to the word that is added (R12). -/
theorem addImmediateForm : Obligations.AddImmediateForm := by
  unfold Obligations.AddImmediateForm
  refine ⟨fun w h => decodeWord_addImm h, by decide, fun dr sr1 imm5 s => ?meaning⟩
  case meaning =>
    rw [exec_addImm, State.operate_eq_signFlag]
    rfl

/-- Settles O12: as for ADD, both sources are read before the one write, so DR may be a source. -/
theorem andRegisterForm : Obligations.AndRegisterForm := by
  unfold Obligations.AndRegisterForm
  refine ⟨fun w h => decodeWord_andReg h, by decide, fun dr sr1 sr2 s => ?meaning⟩
  case meaning =>
    rw [exec_andReg, State.operate_eq_signFlag]
    rfl

/-- Settles O13: the right operand is the whole sign-extended word, ones above a negative immediate (R12). -/
theorem andImmediateForm : Obligations.AndImmediateForm := by
  unfold Obligations.AndImmediateForm
  refine ⟨fun w h => decodeWord_andImm h, by decide, fun dr sr1 imm5 s => ?meaning⟩
  case meaning =>
    rw [exec_andImm, State.operate_eq_signFlag]
    rfl

/-- Settles O14: the ALU's right operand, 0, bears on nothing. -/
theorem notComplements : Obligations.NotComplements := by
  unfold Obligations.NotComplements
  refine ⟨fun w h => decodeWord_not h, by decide, field_encode_not, fun dr sr1 s => ?meaning⟩
  case meaning =>
    rw [exec_not, State.operate_eq_signFlag]
    rfl

end Sys2Proof.Machine
end

section
/-! PROOFS of 41_data_movement.md (R120 to R127). A row of this family fixes the opcode and nothing else, so the opcode's
bits give the decoded instruction. A meaning is one of three shared operations at an address read in the given state: a
load, a register write with its flag, or a store. -/

namespace Sys2Proof

/-! ### The words of the data-movement rows (R76, R87) -/

/-- R80, R87: a word that has a value under the opcode's mask has the value's opcode bits. -/
theorem opcodeBits_of_match {w v : Word} (h : w &&& 0xF000 = v) :
    bitAt w 15 = bitAt v 15 ∧ bitAt w 14 = bitAt v 14 ∧ bitAt w 13 = bitAt v 13 ∧ bitAt w 12 = bitAt v 12 :=
  have hbit := bitAt_of_match h
  ⟨hbit 15 rfl, hbit 14 rfl, hbit 13 rfl, hbit 12 rfl⟩

theorem decodeWord_ld {w : Word} (h : w &&& 0xF000 = 0x2000) : decodeWord w = .ld (fieldDR w) (field w 0 9) := by
  obtain ⟨h15, h14, h13, h12⟩ := opcodeBits_of_match h
  rw [decodeWord, h15, h14, h13, h12]
  rfl

theorem decodeWord_ldi {w : Word} (h : w &&& 0xF000 = 0xA000) : decodeWord w = .ldi (fieldDR w) (field w 0 9) := by
  obtain ⟨h15, h14, h13, h12⟩ := opcodeBits_of_match h
  rw [decodeWord, h15, h14, h13, h12]
  rfl

theorem decodeWord_ldr {w : Word} (h : w &&& 0xF000 = 0x6000) :
    decodeWord w = .ldr (fieldDR w) (fieldSR1 w) (field w 0 6) := by
  obtain ⟨h15, h14, h13, h12⟩ := opcodeBits_of_match h
  rw [decodeWord, h15, h14, h13, h12]
  rfl

theorem decodeWord_lea {w : Word} (h : w &&& 0xF000 = 0xE000) : decodeWord w = .lea (fieldDR w) (field w 0 9) := by
  obtain ⟨h15, h14, h13, h12⟩ := opcodeBits_of_match h
  rw [decodeWord, h15, h14, h13, h12]
  rfl

theorem decodeWord_st {w : Word} (h : w &&& 0xF000 = 0x3000) : decodeWord w = .st (fieldDR w) (field w 0 9) := by
  obtain ⟨h15, h14, h13, h12⟩ := opcodeBits_of_match h
  rw [decodeWord, h15, h14, h13, h12]
  rfl

theorem decodeWord_sti {w : Word} (h : w &&& 0xF000 = 0xB000) : decodeWord w = .sti (fieldDR w) (field w 0 9) := by
  obtain ⟨h15, h14, h13, h12⟩ := opcodeBits_of_match h
  rw [decodeWord, h15, h14, h13, h12]
  rfl

theorem decodeWord_str {w : Word} (h : w &&& 0xF000 = 0x7000) :
    decodeWord w = .str (fieldDR w) (fieldSR1 w) (field w 0 6) := by
  obtain ⟨h15, h14, h13, h12⟩ := opcodeBits_of_match h
  rw [decodeWord, h15, h14, h13, h12]
  rfl

end Sys2Proof

namespace Sys2Proof.Machine

/-! ### The addresses, by the library's sign extension (R12, R73) -/

/-- R120: the PC-relative address of an instruction of this family. -/
theorem State.pcRelative_offset9 (s : State) (off : BitVec 9) : s.pcRelative off = s.pc + off.signExtend 16 :=
  s.pcRelative_eq_signExtend off (by decide) (by decide)

/-- R121: the pointer is the word at the PC-relative address. -/
theorem State.indirect_eq_signExtend (s : State) (off : BitVec 9) :
    s.indirect off = s.mem.readWord (s.pc + off.signExtend 16) := by
  rw [State.indirect, State.pcRelative_offset9, State.memRead]

/-- R122: the base is the register's word in the given state. -/
theorem State.baseOffset_eq_signExtend (s : State) (baseR : RegIdx) (off : BitVec 6) :
    s.baseOffset baseR off = s.gpr[baseR] + off.signExtend 16 := by
  rw [State.baseOffset, sext_eq_signExtend off (by decide) (by decide), State.readReg]

/-! ### The shared operations -/

/-- R22, R24: a register write with update changes the register and the flag, the sign of what is written, and nothing
else. -/
theorem State.writeReg_true_eq_signFlag (s : State) (dr : RegIdx) (v : Word) :
    s.writeReg dr v true = { s with gpr := s.gpr.set dr v, cond := signFlag v } := by
  rw [← setCC_eq_signFlag]
  rfl

/-- R127: a load is the register write of the word at the address. -/
theorem State.load_eq_signFlag (s : State) (dr : RegIdx) (ea : Word) :
    s.load dr ea = { s with gpr := s.gpr.set dr (s.mem.readWord ea), cond := signFlag (s.mem.readWord ea) } :=
  s.writeReg_true_eq_signFlag dr (s.mem.readWord ea)

/-- R52, R127: a store changes no byte outside the word at its address. -/
theorem State.sameMemoryBut_store (s : State) (sr : RegIdx) (ea : Word) : sameMemoryBut ea s (s.store sr ea) :=
  fun k hhi hlo => s.mem.readByte_writeWord_ne ea (s.readReg sr) k hhi hlo

/-- R51, R52, R127: a meaning that is a store at an address: the state differs in memory alone, the word there is SR,
and every other byte reads as before. -/
theorem exists_next_of_store {o : Host.Outcome State Fault Refusal} {s : State} {sr : RegIdx} {ea : Word}
    (h : o = .next (s.store sr ea)) :
    ∃ t, o = .next t ∧ t = { s with mem := t.mem } ∧ t.mem.readWord ea = s.gpr[sr] ∧ sameMemoryBut ea s t :=
  ⟨s.store sr ea, h, s.store_eq sr ea, s.mem.readWord_writeWord_same ea (s.readReg sr), s.sameMemoryBut_store sr ea⟩

/-! ### The meanings (R120 to R126) -/

theorem exec_ld (dr : RegIdx) (off : BitVec 9) (s : State) :
    exec (.ld dr off) s = .next (s.load dr (s.pc + off.signExtend 16)) := by
  rw [← s.pcRelative_offset9]
  rfl

theorem exec_ldi (dr : RegIdx) (off : BitVec 9) (s : State) :
    exec (.ldi dr off) s = .next (s.load dr (s.mem.readWord (s.pc + off.signExtend 16))) := by
  rw [← s.indirect_eq_signExtend]
  rfl

theorem exec_ldr (dr baseR : RegIdx) (off : BitVec 6) (s : State) :
    exec (.ldr dr baseR off) s = .next (s.load dr (s.gpr[baseR] + off.signExtend 16)) := by
  rw [← s.baseOffset_eq_signExtend]
  rfl

theorem exec_lea (dr : RegIdx) (off : BitVec 9) (s : State) :
    exec (.lea dr off) s = .next (s.writeReg dr (s.pc + off.signExtend 16) true) := by
  rw [← s.pcRelative_offset9]
  rfl

theorem exec_st (sr : RegIdx) (off : BitVec 9) (s : State) :
    exec (.st sr off) s = .next (s.store sr (s.pc + off.signExtend 16)) := by
  rw [← s.pcRelative_offset9]
  rfl

theorem exec_sti (sr : RegIdx) (off : BitVec 9) (s : State) :
    exec (.sti sr off) s = .next (s.store sr (s.mem.readWord (s.pc + off.signExtend 16))) := by
  rw [← s.indirect_eq_signExtend]
  rfl

theorem exec_str (sr baseR : RegIdx) (off : BitVec 6) (s : State) :
    exec (.str sr baseR off) s = .next (s.store sr (s.gpr[baseR] + off.signExtend 16)) := by
  rw [← s.baseOffset_eq_signExtend]
  rfl

/-- Settles O15: in the state the meaning is given the PC is the instruction's own address plus 1. -/
theorem loadPcRelative : Obligations.LoadPcRelative := by
  unfold Obligations.LoadPcRelative
  refine ⟨fun w h => decodeWord_ld h, by decide, fun off s => ?address, fun dr off s => ?meaning⟩
  case address => rw [State.pcRelative_offset9, State.advancePc_pc]
  case meaning => rw [exec_ld, State.load_eq_signFlag]

/-- Settles O16: a load whose address is the word at the PC-relative address, both read in the given state. -/
theorem loadIndirect : Obligations.LoadIndirect := by
  unfold Obligations.LoadIndirect
  refine ⟨fun w h => decodeWord_ldi h, by decide, fun dr off s => ?meaning⟩
  case meaning => rw [exec_ldi, State.load_eq_signFlag]

/-- Settles O17: the base is an argument of the one register write, so DR may be the base. -/
theorem loadBaseOffset : Obligations.LoadBaseOffset := by
  unfold Obligations.LoadBaseOffset
  refine ⟨fun w h => decodeWord_ldr h, by decide, fun dr baseR off s => ?meaning⟩
  case meaning => rw [exec_ldr, State.load_eq_signFlag]

/-- Settles O18: the address itself is written, with its flag. -/
theorem loadEffectiveAddress : Obligations.LoadEffectiveAddress := by
  unfold Obligations.LoadEffectiveAddress
  refine ⟨fun w h => decodeWord_lea h, by decide, fun dr off s => ?meaning⟩
  case meaning => rw [exec_lea, State.writeReg_true_eq_signFlag]

/-- Settles O19: a store at the PC-relative address. -/
theorem storePcRelative : Obligations.StorePcRelative := by
  unfold Obligations.StorePcRelative
  exact ⟨fun w h => decodeWord_st h, by decide, fun sr off s => exists_next_of_store (exec_st sr off s)⟩

/-- Settles O20: the store's address is a word of the memory before the store, so a store onto the pointer itself is no
special case. -/
theorem storeIndirect : Obligations.StoreIndirect := by
  unfold Obligations.StoreIndirect
  exact ⟨fun w h => decodeWord_sti h, by decide, fun sr off s => exists_next_of_store (exec_sti sr off s)⟩

/-- Settles O21: a store at the base plus the offset. -/
theorem storeBaseOffset : Obligations.StoreBaseOffset := by
  unfold Obligations.StoreBaseOffset
  exact ⟨fun w h => decodeWord_str h, by decide, fun sr baseR off s => exists_next_of_store (exec_str sr baseR off s)⟩

end Sys2Proof.Machine
end

section
/-! PROOFS of 42_control.md (R140 to R146). JMP, RET and JSRR jump by one shared operation, `State.jumpTo`, and JSR and
JSRR link by another, `State.link`, which leaves the PC. RTI's info is the whole word, so the word is put together again
from its opcode and the bits below it. -/

namespace Sys2Proof

/-! ### The words of the control rows (R76, R87) -/

theorem decodeWord_br {w : Word} (h : w &&& 0xF000 = 0x0000) :
    decodeWord w = .br (bitAt w 11) (bitAt w 10) (bitAt w 9) (field w 0 9) := by
  obtain ⟨h15, h14, h13, h12⟩ := opcodeBits_of_match h
  rw [decodeWord, h15, h14, h13, h12]
  rfl

theorem decodeWord_jump {w : Word} (h : w &&& 0xF000 = 0xC000) : decodeWord w = decodeJump (fieldSR1 w) := by
  obtain ⟨h15, h14, h13, h12⟩ := opcodeBits_of_match h
  rw [decodeWord, h15, h14, h13, h12]
  rfl

theorem decodeWord_jsr {w : Word} (h : w &&& 0xF800 = 0x4800) : decodeWord w = .jsr (field w 0 11) := by
  have hbit := bitAt_of_match h
  rw [decodeWord, hbit 15 rfl, hbit 14 rfl, hbit 13 rfl, hbit 12 rfl, hbit 11 rfl]
  rfl

theorem decodeWord_jsrr {w : Word} (h : w &&& 0xF800 = 0x4000) : decodeWord w = .jsrr (fieldSR1 w) := by
  have hbit := bitAt_of_match h
  rw [decodeWord, hbit 15 rfl, hbit 14 rfl, hbit 13 rfl, hbit 12 rfl, hbit 11 rfl]
  rfl

theorem decodeWord_rti {w : Word} (h : w &&& 0xF000 = 0x8000) : decodeWord w = .rti (field w 0 12) := by
  obtain ⟨h15, h14, h13, h12⟩ := opcodeBits_of_match h
  rw [decodeWord, h15, h14, h13, h12]
  rfl

/-! ### The whole word of a fatal stop (R76, R201) -/

/-- R80, R87: a word that has a value under the opcode's mask has the value's opcode. -/
theorem field_opcode_of_match {w v : Word} (h : w &&& 0xF000 = v) : field w 12 4 = field v 12 4 := by
  obtain ⟨h15, h14, h13, h12⟩ := opcodeBits_of_match h
  rw [field_opcode, field_opcode, h15, h14, h13, h12]

/-- R10, R80: a word is its opcode followed by the bits below it. -/
theorem field_opcode_append (w : Word) : field w 12 4 ++ field w 0 12 = w :=
  calc field w 12 4 ++ field w 0 12
      = w.extractLsb' 0 16 := BitVec.extractLsb'_append_extractLsb'_eq_extractLsb' rfl
    _ = w := BitVec.extractLsb'_eq_self

/-- R10, R80: an opcode and the bits below it, each put in its place. -/
theorem putField_opcode_or (opcode : BitVec 4) (rest : BitVec 12) :
    putField opcode 12 ||| putField rest 0 = opcode ++ rest := by
  have hopcode : field (putField opcode 12 ||| putField rest 0) 12 4 = opcode := by
    rw [field_or, field_putField_self _ _ (by decide), field_putField_apart _ _ _ _ (by decide)]
    exact BitVec.or_zero
  have hrest : field (putField opcode 12 ||| putField rest 0) 0 12 = rest := by
    rw [field_or, field_putField_self _ _ (by decide), field_putField_apart _ _ _ _ (by decide)]
    exact BitVec.zero_or
  rw [← field_opcode_append (putField opcode 12 ||| putField rest 0), hopcode, hrest]

/-- R76: RTI's word is its opcode followed by the bits it carries. -/
theorem encode_rti (unused : BitVec 12) : encode (.rti unused) = 0x8#4 ++ unused :=
  putField_opcode_or 0x8 unused

end Sys2Proof

namespace Sys2Proof.Machine

/-! ### The branch test (R140, R141) -/

/-- R140: a branch is taken where one of the flags it asks for holds. -/
theorem branchTaken_iff (n z p : Bool) (c : Cond) :
    branchTaken n z p c = true ↔ (n = true ∧ c = .n) ∨ (z = true ∧ c = .z) ∨ (p = true ∧ c = .p) := by
  simp only [branchTaken_eq, and_comm]

/-! ### The link (R143, R144) -/

/-- R22, R24: the link writes R7, and the flag under its parameter, and nothing else. -/
theorem State.link_eq_signFlag (s : State) :
    s.link = { s with
      gpr := s.gpr.set 7 s.pc, cond := if Config.jsrUpdatesFlags then signFlag s.pc else s.cond } := by
  rw [State.link_eq, setCC_eq_signFlag]

/-! ### The meanings (R140 to R146) -/

/-- R140: the target by the library's sign extension. -/
theorem exec_br (n z p : Bool) (off : BitVec 9) (s : State) :
    exec (.br n z p off) s =
      .next (if branchTaken n z p s.cond then s.setPc (s.pc + off.signExtend 16) else s) := by
  rw [← s.pcRelative_offset9]
  rfl

theorem exec_jmp (baseR : RegIdx) (s : State) : exec (.jmp baseR) s = .next (s.jumpTo baseR) := rfl

theorem exec_ret (s : State) : exec .ret s = .next (s.jumpTo 7) := rfl

/-- R142, R86: whichever of the two terms a word of opcode 0xC decodes to, it jumps through the register of its field. -/
theorem exec_decodeJump (baseR : RegIdx) (s : State) : exec (decodeJump baseR) s = .next (s.jumpTo baseR) := by
  by_cases hret : baseR = 7
  · rw [hret]
    exact exec_ret s
  · rw [decodeJump_of_ne baseR hret, exec_jmp]

/-- R143: the offset is from the incremented PC, not from the link's state, which has the same PC. -/
theorem exec_jsr (off : BitVec 11) (s : State) :
    exec (.jsr off) s = .next (s.link.setPc (s.pc + off.signExtend 16)) := by
  rw [← s.pcRelative_eq_signExtend off (by decide) (by decide)]
  rfl

/-- R144: the base is read in the link's state, where R7 holds the return address (D13). -/
theorem exec_jsrr (baseR : RegIdx) (s : State) :
    exec (.jsrr baseR) s = .next (s.link.setPc (if baseR = 7 then s.pc else s.gpr[baseR])) := by
  change Host.Outcome.next (s.link.setPc (s.link.readReg baseR)) = _
  rw [s.link_readReg]
  rfl

/-- R146, R201: the info is the word put together from its opcode and the bits RTI carries. -/
theorem exec_rti (unused : BitVec 12) (s : State) :
    exec (.rti unused) s = .next (s.raiseFatal .invalidOpcode (0x8#4 ++ unused)) := by
  rw [← encode_rti]
  rfl

/-- Settles O22: the branch test is the OR of the three requested flags. -/
theorem branchOnCondition : Obligations.BranchOnCondition := by
  unfold Obligations.BranchOnCondition
  refine ⟨fun w h => decodeWord_br h, by decide, fun n z p off s => ?meaning⟩
  case meaning =>
    simp only [exec_br, branchTaken_iff]
    rfl

/-- Settles O23: JMP and RET are one jump, so it does not matter to which of them a word decodes. -/
theorem jumpThroughRegister : Obligations.JumpThroughRegister := by
  unfold Obligations.JumpThroughRegister
  refine ⟨fun w s h => ?word, by decide, by decide, by decide, exec_jmp, exec_ret⟩
  case word =>
    rw [decodeWord_jump h, exec_decodeJump]
    rfl

/-- Settles O24: the link, then the PC, which the link left at the return address. -/
theorem callPcRelative : Obligations.CallPcRelative := by
  unfold Obligations.CallPcRelative
  refine ⟨fun w h => decodeWord_jsr h, by decide, fun off s => ?meaning⟩
  case meaning =>
    rw [exec_jsr, State.link_eq_signFlag]
    rfl

/-- Settles O25: as for JSR, with the base read after the link. -/
theorem callThroughRegister : Obligations.CallThroughRegister := by
  unfold Obligations.CallThroughRegister
  refine ⟨fun w h => decodeWord_jsrr h, by decide, fun baseR s => ?meaning⟩
  case meaning =>
    rw [exec_jsrr, State.link_eq_signFlag]
    rfl

/-- Settles O26: the opcode and the bits that RTI carries are the whole word. -/
theorem rtiStopsWithInvalidOpcode : Obligations.RtiStopsWithInvalidOpcode := by
  unfold Obligations.RtiStopsWithInvalidOpcode
  refine ⟨fun w s h => ⟨decodeWord_rti h, ?word⟩, exec_rti⟩
  case word =>
    have hopcode : field w 12 4 = 0x8#4 := field_opcode_of_match h
    rw [decodeWord_rti h, exec_rti, ← hopcode, field_opcode_append]
    rfl

end Sys2Proof.Machine
end

section
/-! PROOFS of 43_trap.md, the dispatcher (R160) and OUT (R164). The dispatcher gives each vector one meaning, so it does
not matter whether a word of opcode 0xF decodes to a service's term or to TRAP's. The fatal stop's info is the whole
word, put together again from its opcode, the bits TRAP does not use and the vector. -/

namespace Sys2Proof

/-! ### The words of the TRAP row and of the services' rows (R76, R87, R160) -/

theorem decodeWord_trap {w : Word} (h : w &&& 0xF000 = 0xF000) :
    decodeWord w = decodeTrap (field w 8 4) (field w 0 8) := by
  obtain ⟨h15, h14, h13, h12⟩ := opcodeBits_of_match h
  rw [decodeWord, h15, h14, h13, h12]
  rfl

/-- R87: a word that has a value under a service's mask has the value's vector. -/
theorem field_vector_of_match {w v : Word} (h : w &&& 0xF0FF = v) : field w 0 8 = field v 0 8 := by
  have hmask : field (0xF0FF : Word) 0 8 = BitVec.allOnes 8 := by decide
  calc field w 0 8
      = field w 0 8 &&& field 0xF0FF 0 8 := by rw [hmask, BitVec.and_allOnes]
    _ = field (w &&& 0xF0FF) 0 8 := BitVec.extractLsb'_and.symm
    _ = field v 0 8 := by rw [h]

/-- R87: a word that has a value under a service's mask has the value under the opcode's mask. -/
theorem and_opcode_of_match {w v : Word} (h : w &&& 0xF0FF = v) : w &&& 0xF000 = v &&& 0xF000 := by
  rw [← h, BitVec.and_assoc]
  rfl

/-- R160: a word of a service's row decodes as the dispatcher's vector of the row's value says. -/
theorem decodeWord_service {w v : Word} (h : w &&& 0xF0FF = v) (hv : v &&& 0xF000 = 0xF000) :
    decodeWord w = decodeTrap (field w 8 4) (field v 0 8) := by
  rw [decodeWord_trap ((and_opcode_of_match h).trans hv), field_vector_of_match h]

theorem decodeWord_out {w : Word} (h : w &&& 0xF0FF = 0xF021) : decodeWord w = .out :=
  decodeWord_service h rfl

/-! ### The whole word of the fatal stop (R76, R202) -/

/-- R10, R160: a word is its opcode, the bits TRAP does not use and the vector, one after another. -/
theorem field_opcode_append_unused_append_vector (w : Word) : field w 12 4 ++ field w 8 4 ++ field w 0 8 = w :=
  calc field w 12 4 ++ field w 8 4 ++ field w 0 8
      = field w 8 8 ++ field w 0 8 :=
        congrArg (· ++ field w 0 8) (BitVec.extractLsb'_append_extractLsb'_eq_extractLsb' rfl)
    _ = w.extractLsb' 0 16 := BitVec.extractLsb'_append_extractLsb'_eq_extractLsb' rfl
    _ = w := BitVec.extractLsb'_eq_self

/-- R76: so is TRAP's word, of the bits and the vector the term carries. -/
theorem encode_trap (unused : BitVec 4) (vect : Byte) : encode (.trap unused vect) = 0xF#4 ++ unused ++ vect := by
  have hopcode : field (encode (.trap unused vect)) 12 4 = 0xF#4 := by
    simp [encode, field_or, field_putField_apart, field_ofNat]
  have hunused : field (encode (.trap unused vect)) 8 4 = unused := by
    simp [encode, field_or, field_putField_self, field_putField_apart, field_ofNat]
  have hvect : field (encode (.trap unused vect)) 0 8 = vect := by
    simp [encode, field_or, field_putField_self, field_putField_apart, field_ofNat]
  rw [← field_opcode_append_unused_append_vector (encode (.trap unused vect)), hopcode, hunused, hvect]

/-- R76, R160: TRAP's word, of the bits and the vector of a word of opcode 0xF, is that word. -/
theorem encode_trap_fields {w : Word} (h : w &&& 0xF000 = 0xF000) :
    encode (.trap (field w 8 4) (field w 0 8)) = w := by
  have hopcode : field w 12 4 = 0xF#4 := field_opcode_of_match h
  rw [encode_trap, ← hopcode, field_opcode_append_unused_append_vector]

end Sys2Proof

namespace Sys2Proof.Machine

/-! ### The meanings (R160, R164, R167) -/

theorem exec_trap (unused : BitVec 4) (v : Byte) (s : State) : exec (.trap unused v) s = execTrap unused v s := rfl

/-- R160, R86: whichever term a word of opcode 0xF decodes to, its meaning is the dispatcher's for its vector. -/
theorem exec_decodeTrap (unused : BitVec 4) (v : Byte) (s : State) :
    exec (decodeTrap unused v) s = execTrap unused v s := by
  cases hv : definedVector v with
  | false =>
    rw [decodeTrap_of_undefined unused v hv, exec_trap]
  | true =>
    have hmem := (definedVector_iff_mem v).mp hv
    simp only [List.mem_cons, List.not_mem_nil, or_false] at hmem
    rcases hmem with rfl | rfl | rfl | rfl | rfl <;> rfl

/-- R164: a character is the low byte of the register's word. -/
theorem lowByte_eq_setWidth (w : Word) : lowByte w = w.setWidth 8 :=
  (BitVec.setWidth_eq_extractLsb' (by decide)).symm

/-- R164: OUT appends R0's character to the output and changes nothing else. -/
theorem State.serviceOut_eq (s : State) :
    s.serviceOut = { s with cout := s.cout ++ [s.gpr[(0 : RegIdx)].setWidth 8] } := by
  rw [← lowByte_eq_setWidth]
  rfl

theorem exec_out (s : State) : exec .out s = .next s.serviceOut := rfl

/-- Settles O28: a word's meaning is the dispatcher's for its vector, and the dispatcher's info is the word; a TRAP
term's meaning is the dispatcher's too, whatever bits it carries. -/
theorem trapDispatchesOnTheVector : Obligations.TrapDispatchesOnTheVector := by
  unfold Obligations.TrapDispatchesOnTheVector
  refine ⟨fun w s h => ?word, fun u s => ⟨rfl, rfl, rfl⟩, fun u s => ?out, fun u s => rfl⟩
  case word =>
    rw [decodeWord_trap h, exec_decodeTrap, execTrap, encode_trap_fields h]
    rfl
  case out =>
    have hvector : exec (.trap u 0x21) s = exec .out s := rfl
    rw [hvector, exec_out, State.serviceOut_eq]

/-- Settles O31: the row's vector is OUT's, and OUT is one console write of R0's character. -/
theorem outWritesTheLowByte : Obligations.OutWritesTheLowByte := by
  unfold Obligations.OutWritesTheLowByte
  refine ⟨fun w h => decodeWord_out h, rfl, fun s => ?meaning⟩
  case meaning => rw [exec_out, State.serviceOut_eq]

end Sys2Proof.Machine
end

section
/-! PROOFS of 60_exceptions.md, the fatal stops (R200 to R204). Every instruction that has a fatal kind has one meaning,
the stop with its own word as info, and that word is the fetched one; so a fatal step is said once, for all the kinds. A
launch that fails leaves a Faulted core, which `run()` never restarts. -/

namespace Sys2Proof

/-! ### The words of the fatal stops (R80, R201, R202) -/

/-- R80: the opcode's mask keeps the opcode and clears the bits below it. -/
theorem and_opcode_eq_append (w : Word) : w &&& 0xF000 = field w 12 4 ++ 0#12 :=
  calc w &&& 0xF000
      = (field w 12 4 ++ field w 0 12) &&& (BitVec.allOnes 4 ++ 0#12) := by rw [field_opcode_append]; rfl
    _ = field w 12 4 ++ 0#12 := by rw [BitVec.and_append, BitVec.and_allOnes, BitVec.and_zero]

theorem decodeWord_reserved {w : Word} (h : w &&& 0xF000 = 0xD000) : decodeWord w = .reserved (field w 0 12) := by
  obtain ⟨h15, h14, h13, h12⟩ := opcodeBits_of_match h
  rw [decodeWord, h15, h14, h13, h12]
  rfl

/-- R76: the reserved instruction's word is its opcode followed by the bits it carries. -/
theorem encode_reserved (unused : BitVec 12) : encode (.reserved unused) = 0xD#4 ++ unused :=
  putField_opcode_or 0xD unused

/-- R76, R201: RTI's word, of the bits of a word of opcode 0x8, is that word. -/
theorem encode_rti_field {w : Word} (h : w &&& 0xF000 = 0x8000) : encode (.rti (field w 0 12)) = w := by
  have hopcode : field w 12 4 = 0x8#4 := field_opcode_of_match h
  rw [encode_rti, ← hopcode, field_opcode_append]

/-- R76, R201: the reserved instruction's word, of the bits of a word of opcode 0xD, is that word. -/
theorem encode_reserved_field {w : Word} (h : w &&& 0xF000 = 0xD000) : encode (.reserved (field w 0 12)) = w := by
  have hopcode : field w 12 4 = 0xD#4 := field_opcode_of_match h
  rw [encode_reserved, ← hopcode, field_opcode_append]

/-- R76, R201, R202: an instruction that stops the core carries every bit of the word it was decoded from. -/
theorem encode_decodeWord_of_faultKind {w : Word} {kind : Machine.FaultKind}
    (h : (decodeWord w).faultKind = some kind) : encode (decodeWord w) = w := by
  have hopcode := and_opcode_eq_append w
  rw [faultKind_decodeWord] at h
  split_ifs at h with hinvalid htrap hdefined
  · rcases hinvalid with hreserved | hrti
    · rw [hreserved] at hopcode
      rw [decodeWord_reserved hopcode, encode_reserved_field hopcode]
    · rw [hrti] at hopcode
      rw [decodeWord_rti hopcode, encode_rti_field hopcode]
  · rw [htrap] at hopcode
    rw [decodeWord_trap hopcode, decodeTrap_of_undefined _ _ (Bool.eq_false_of_not_eq_true hdefined),
      encode_trap_fields hopcode]

/-- R201: the words of the two opcodes that stop with InvalidOpcode. -/
theorem faultKind_of_invalidOpcode {w : Word} (h : field w 12 4 = 0xD ∨ field w 12 4 = 0x8) :
    (decodeWord w).faultKind = some .invalidOpcode := by
  rw [faultKind_decodeWord, if_pos h]

/-- R160, R168: the vectors of no service. -/
theorem definedVector_eq_false_iff (v : Byte) :
    definedVector v = false ↔ v ∉ [(0x20 : Byte), 0x21, 0x22, 0x23, 0x25] :=
  Bool.eq_false_iff.trans (not_congr (definedVector_iff_mem v))

/-- R168, R202: the words that stop with UnsupportedTrapVector. -/
theorem faultKind_of_unsupportedVector {w : Word} (h : field w 12 4 = 0xF)
    (hv : field w 0 8 ∉ [(0x20 : Byte), 0x21, 0x22, 0x23, 0x25]) :
    (decodeWord w).faultKind = some .unsupportedTrapVector := by
  have hvalid : ¬ (field w 12 4 = 0xD ∨ field w 12 4 = 0x8) := by rw [h]; decide
  rw [faultKind_decodeWord, if_neg hvalid, if_pos h, (definedVector_eq_false_iff _).mpr hv]
  rfl

end Sys2Proof

namespace Sys2Proof.Machine

/-! ### The meaning of an instruction that stops the core (R200 to R202) -/

/-- R168, R202: the dispatcher for a vector that is none of the five. -/
theorem execTrap_of_undefined (unused : BitVec 4) {v : Byte} (s : State) (h : definedVector v = false) :
    execTrap unused v s = .next (s.raiseFatal .unsupportedTrapVector (encode (.trap unused v))) := by
  simp only [definedVector, Bool.or_eq_false_iff, beq_eq_false_iff_ne] at h
  obtain ⟨⟨⟨⟨hgetc, hout⟩, hputs⟩, hin⟩, hhalt⟩ := h
  simp only [execTrap, hgetc, hout, hputs, hin, hhalt, if_false]

/-- R200: the meaning of an instruction that has a fatal kind is the stop of that kind, with the instruction's word. -/
theorem exec_of_faultKind {i : Instr} {kind : FaultKind} (s : State) (h : i.faultKind = some kind) :
    exec i s = .next (s.raiseFatal kind (encode i)) := by
  cases i with
  | rti unused | reserved unused =>
    obtain rfl := Option.some.inj h
    rfl
  | trap unused v =>
    rw [Instr.faultKind] at h
    split_ifs at h with hdefined
    obtain rfl := Option.some.inj h
    exact execTrap_of_undefined unused s (Bool.eq_false_of_not_eq_true hdefined)
  | _ => exact absurd h (Option.some_ne_none kind).symm

/-- R201, R202: for a decoded word, the info is that word. -/
theorem exec_decodeWord_of_faultKind {w : Word} {kind : FaultKind} (s : State)
    (h : (decodeWord w).faultKind = some kind) : exec (decodeWord w) s = .next (s.raiseFatal kind w) := by
  rw [exec_of_faultKind s h, encode_decodeWord_of_faultKind h]

/-- R200, R239: a step that fetches such a word increments the PC and then stops, with the fetched word as info. -/
theorem step_of_faultKind {s : State} {kind : FaultKind} (hrun : s.run = .running) (hservice : s.service = .none)
    (h : (decodeWord s.fetch).faultKind = some kind) : step s = .next (s.advancePc.raiseFatal kind s.fetch) := by
  rw [step_of_boundary s hrun hservice, State.instruction, exec_decodeWord_of_faultKind _ h]

/-- R201, R84: the reserved instruction's info is its opcode followed by the bits it carries. -/
theorem exec_reserved (unused : BitVec 12) (s : State) :
    exec (.reserved unused) s = .next (s.raiseFatal .invalidOpcode (0xD#4 ++ unused)) := by
  rw [← encode_reserved]
  rfl

/-- Settles O27: the opcode alone gives the fatal kind, and a fatal meaning and a fatal step are the same for every
kind. -/
theorem reservedOpcodeStops : Obligations.ReservedOpcodeStops := by
  unfold Obligations.ReservedOpcodeStops
  refine ⟨rfl, fun w s h => ⟨decodeWord_reserved h, ?word⟩, fun s hrun hservice h => ?step, exec_reserved⟩
  case word => exact exec_decodeWord_of_faultKind s (faultKind_of_invalidOpcode (.inl (field_opcode_of_match h)))
  case step => exact step_of_faultKind hrun hservice (faultKind_of_invalidOpcode h)

/-- Settles O29: as for InvalidOpcode, with the kind given by the opcode and the vector. -/
theorem unsupportedVectorStops : Obligations.UnsupportedVectorStops := by
  unfold Obligations.UnsupportedVectorStops
  refine ⟨rfl, fun w s h hv => ?word, fun s hrun hservice h hv => ?step, fun u v s hv => ?term⟩
  case word => exact exec_decodeWord_of_faultKind s (faultKind_of_unsupportedVector (field_opcode_of_match h) hv)
  case step => exact step_of_faultKind hrun hservice (faultKind_of_unsupportedVector h hv)
  case term =>
    rw [exec_trap, execTrap_of_undefined u s ((definedVector_eq_false_iff v).mpr hv), encode_trap]
    rfl

/-! ### A launch that fails (R203, R204, D7) -/

/-- R200, D24, R213: `run()` does not restart a Faulted core, and the host sees a non-zero exit. -/
theorem State.never_runs_of_faulted {s : State} {kind : FaultKind} {info : Word} (h : s.run = .faulted kind info) :
    s.hostRun.running = false ∧ s.exitStatus = some .nonZero := by
  have hhost : s.hostRun = s := by simp only [State.hostRun, h]
  rw [hhost]
  simp only [State.running, State.exitStatus, h, and_self]

/-- R204: a file that cannot be read. -/
theorem State.launch_none (p : ResetParams) :
    State.launch p none = .next ((State.resetWith p).raiseFatal .fileOpen 0) := rfl

/-- R62, D7: a file that is not admitted. -/
theorem State.launch_of_parseObject_none (p : ResetParams) {bytes : List Byte} (h : parseObject bytes = none) :
    State.launch p (some bytes) = .refused .malformedObject := by
  simp only [State.launch, h]

/-- R237: an admitted file is loaded over the reset state, and then the PC is set. -/
theorem State.launch_of_parseObject_some (p : ResetParams) {bytes : List Byte} {origin : Word} {data : List Word}
    (h : parseObject bytes = some (origin, data)) :
    State.launch p (some bytes) = .next ((State.resetWith p).loadDense data origin).initPc := by
  simp only [State.launch, h]

/-- R203: an image larger than the memory from its origin up. -/
theorem State.loadDense_of_too_large (s : State) {data : List Word} {start : Word}
    (h : 65536 - start.toNat < data.length) : s.loadDense data start = s.raiseFatal .memoryBounds start :=
  if_pos h

/-- Settles O58: the two fatal stops of a launch leave a Faulted core, and a file that is not admitted is refused. -/
theorem failedLaunchNeverRuns : Obligations.FailedLaunchNeverRuns := by
  unfold Obligations.FailedLaunchNeverRuns
  obtain ⟨hrefused, -, hroundTrip⟩ := objectFileIsBigEndianWords
  refine ⟨rfl, rfl, fun p => ?missing, fun p origin data hlarge => ?large, fun p bytes h => ?malformed⟩
  case missing => exact ⟨_, State.launch_none p, rfl, State.never_runs_of_faulted rfl⟩
  case large =>
    have hlaunch := State.launch_of_parseObject_some p (hroundTrip origin data)
    rw [State.loadDense_of_too_large _ hlarge] at hlaunch
    exact ⟨_, hlaunch, rfl, State.never_runs_of_faulted rfl⟩
  case malformed => exact State.launch_of_parseObject_none p ((hrefused bytes).mpr h)

end Sys2Proof.Machine
end

section
/-! PROOFS of 70_reset_and_hazards.md, what a launch leaves (R230 to R234). The loader's copy touches memory and the
program start alone. A word it does not cover keeps its RESET_MEM; a word it covers is written once, because an image
that fits does not come round to its own first word. -/

namespace Sys2Proof.Machine

/-! ### The loader's copy, word by word (R63) -/

/-- Word `k + 1` from an address is word `k` from the next one. -/
theorem add_ofNat_succ (a : Word) (k : Nat) : a + BitVec.ofNat 16 (k + 1) = a + 1 + BitVec.ofNat 16 k :=
  calc a + BitVec.ofNat 16 (k + 1)
      = a + BitVec.ofNat 16 (1 + k) := by rw [Nat.add_comm]
    _ = a + (1 + BitVec.ofNat 16 k) := by rw [BitVec.ofNat_add]; rfl
    _ = a + 1 + BitVec.ofNat 16 k := (BitVec.add_assoc _ _ _).symm

/-- R50: fewer than 65,536 words up from the next address, the addresses have not come round. -/
theorem ne_add_one_add_ofNat (a : Word) {k : Nat} (h : k + 1 < 65536) : a ≠ a + 1 + BitVec.ofNat 16 k := by
  bv_omega

/-- R63: the copy leaves every word outside it. -/
theorem Memory.readWord_writeWords_of_outside (m : Memory) {a x : Word} {vs : List Word}
    (h : ∀ k < vs.length, x ≠ a + BitVec.ofNat 16 k) : (m.writeWords a vs).readWord x = m.readWord x := by
  induction vs generalizing m a with
  | nil => rfl
  | cons v vs ih =>
    have hfirst : x ≠ a := by simpa using h 0 (Nat.zero_lt_succ _)
    have hrest : ∀ k < vs.length, x ≠ a + 1 + BitVec.ofNat 16 k := fun k hk => by
      rw [← add_ofNat_succ]
      exact h (k + 1) (Nat.succ_lt_succ hk)
    rw [Memory.writeWords, ih _ hrest, Memory.readWord_writeWord, if_neg hfirst]

/-- R63: the copy of at most the whole memory holds the image's words from its start up. -/
theorem Memory.readWord_writeWords (m : Memory) (a : Word) {vs : List Word} (hfits : vs.length ≤ 65536) (k : Nat)
    (h : k < vs.length) : (m.writeWords a vs).readWord (a + BitVec.ofNat 16 k) = vs[k] := by
  induction vs generalizing m a k with
  | nil => exact absurd h (Nat.not_lt_zero k)
  | cons v vs ih =>
    rw [List.length_cons] at hfits h
    cases k with
    | zero =>
      have hkept : ∀ j < vs.length, a ≠ a + 1 + BitVec.ofNat 16 j := fun j hj => ne_add_one_add_ofNat a (by omega)
      rw [BitVec.add_zero, Memory.writeWords,
        Memory.readWord_writeWords_of_outside _ hkept, Memory.readWord_writeWord_same, List.getElem_cons_zero]
    | succ j =>
      rw [add_ofNat_succ, Memory.writeWords, ih _ _ (by omega) j (by omega), List.getElem_cons_succ]

/-! ### A launch that succeeds (R237) -/

/-- R63: an image that fits is copied and its start recorded. -/
theorem State.loadDense_of_fits (s : State) {data : List Word} {start : Word}
    (h : data.length ≤ 65536 - start.toNat) :
    s.loadDense data start = { s with mem := s.mem.writeWords start data, programStart := start } :=
  if_neg (Nat.not_lt.mpr h)

/-- R230 to R237: the state that a launch leaves is the reset state with the image copied and the PC at its origin. -/
theorem State.launch_of_fits (p : ResetParams) {origin : Word} {data : List Word}
    (h : data.length ≤ 65536 - origin.toNat) :
    State.launch p (some (objectBytes origin data)) =
      .next { State.resetWith p with mem := p.mem.writeWords origin data, programStart := origin, pc := origin } := by
  obtain ⟨-, -, hroundTrip⟩ := objectFileIsBigEndianWords
  rw [State.launch_of_parseObject_some p (hroundTrip origin data), State.loadDense_of_fits _ h]
  rfl

/-- Settles O57: the launched state is written out, and its memory is the loader's copy over RESET_MEM. -/
theorem launchLeavesTheResetState : Obligations.LaunchLeavesTheResetState := by
  unfold Obligations.LaunchLeavesTheResetState
  refine ⟨fun p origin data hfits => ?launched, fun p => ⟨State.resetWith_pc p, State.resetWith_programStart p⟩, rfl⟩
  have hsize : data.length ≤ 65536 := hfits.trans (Nat.sub_le _ _)
  exact ⟨_, State.launch_of_fits p hfits, rfl, rfl, rfl, rfl, rfl, rfl,
    fun k hk => p.mem.readWord_writeWords origin hsize k hk,
    fun a houtside => p.mem.readWord_writeWords_of_outside houtside⟩

end Sys2Proof.Machine
end

section
/-! PROOFS of 30_encoding.md, the round trip and the rows (R76, R83, R87): a well-formed instruction's word decodes to
it, and a word decodes to a well-formed instruction of a row that covers the word. -/

namespace Sys2Proof

/-! ### A well-formed instruction's word (R76, R83) -/

/-- Settles O1: the round trip of each constructor. -/
theorem decodeEncodeRoundTrip : Obligations.DecodeEncodeRoundTrip := by
  unfold Obligations.DecodeEncodeRoundTrip
  intro i
  cases i with
  | addReg dr sr1 sr2 => exact Laws.RoundTrip.addReg dr sr1 sr2
  | addImm dr sr1 imm5 => exact Laws.RoundTrip.addImm dr sr1 imm5
  | andReg dr sr1 sr2 => exact Laws.RoundTrip.andReg dr sr1 sr2
  | andImm dr sr1 imm5 => exact Laws.RoundTrip.andImm dr sr1 imm5
  | not dr sr1 => exact Laws.RoundTrip.not dr sr1
  | ld dr off => exact Laws.RoundTrip.ld dr off
  | ldi dr off => exact Laws.RoundTrip.ldi dr off
  | ldr dr baseR off => exact Laws.RoundTrip.ldr dr baseR off
  | lea dr off => exact Laws.RoundTrip.lea dr off
  | st sr off => exact Laws.RoundTrip.st sr off
  | sti sr off => exact Laws.RoundTrip.sti sr off
  | str sr baseR off => exact Laws.RoundTrip.str sr baseR off
  | br n z p off => exact Laws.RoundTrip.br n z p off
  | jmp baseR => exact Laws.RoundTrip.jmp baseR
  | ret => exact Laws.RoundTrip.ret
  | jsr off => exact Laws.RoundTrip.jsr off
  | jsrr baseR => exact Laws.RoundTrip.jsrr baseR
  | rti unused => exact Laws.RoundTrip.rti unused
  | trap unused vect => exact Laws.RoundTrip.trap unused vect
  | getc => exact Laws.RoundTrip.getc
  | out => exact Laws.RoundTrip.out
  | puts => exact Laws.RoundTrip.puts
  | inChar => exact Laws.RoundTrip.inChar
  | halt => exact Laws.RoundTrip.halt
  | reserved unused => exact Laws.RoundTrip.reserved unused

/-! ### The decoded instruction is well formed (R86, R87) -/

theorem wellFormed_decodeJump (r : RegIdx) : (decodeJump r).wellFormed = true := by
  unfold decodeJump
  split_ifs with hret
  · rfl
  · simpa [Instr.wellFormed] using hret

theorem wellFormed_decodeTrap (unused : BitVec 4) (v : Byte) : (decodeTrap unused v).wellFormed = true := by
  cases hv : definedVector v with
  | false => rw [decodeTrap_of_undefined unused v hv, Instr.wellFormed, hv]; rfl
  | true =>
    have hmem := (definedVector_iff_mem v).mp hv
    simp only [List.mem_cons, List.not_mem_nil, or_false] at hmem
    rcases hmem with rfl | rfl | rfl | rfl | rfl <;> rfl

/-- R83, R87: a word decodes to the one name of its row. -/
theorem wellFormed_decodeWord (w : Word) : (decodeWord w).wellFormed = true := by
  unfold decodeWord
  split
  -- By opcode: ADD (0x1) and AND (0x5) test w[5], 0x4 tests w[11], 0xC is JMP and RET, 0xF is TRAP.
  case h_2 | h_6 => split <;> rfl
  case h_5 => split <;> rfl
  case h_13 => exact wellFormed_decodeJump _
  case h_16 => exact wellFormed_decodeTrap _ _
  all_goals rfl

/-! ### Fields as masked words (R10) -/

/-- The bits of a word that the field of `n` bits from bit `lo` up is made of. -/
def fieldMask (lo n : Nat) : Word := putField (BitVec.allOnes n) lo

/-- R10: a field put back where it was read is the word under the field's mask. -/
theorem putField_field (w : Word) (lo n : Nat) : putField (field w lo n) lo = w &&& fieldMask lo n := by
  apply BitVec.eq_of_getLsbD_eq
  intro i hi
  have hfield := bitAt_putField (field w lo n) lo i
  have hmask := bitAt_putField (BitVec.allOnes n) lo i
  simp only [bitAt] at hfield hmask
  rw [BitVec.getLsbD_and, fieldMask, hfield, hmask]
  by_cases hlo : lo ≤ i
  · simp [field, hlo, hi, Bool.and_comm]
  · simp [hlo]

/-- Two words that agree under a mask agree under every part of it. -/
theorem and_eq_and_of_sub {w w' m part : Word} (h : w' &&& m = w &&& m) (hpart : m &&& part = part) :
    w' &&& part = w &&& part := by
  rw [← hpart, ← BitVec.and_assoc, h, BitVec.and_assoc]

/-- R10: a field that lies inside a mask is the same for words that agree under the mask. -/
theorem field_eq_of_and_eq {w w' m : Word} (lo n : Nat) (h : w' &&& m = w &&& m)
    (hpart : m &&& fieldMask lo n = fieldMask lo n) (hle : lo + n ≤ 16) : field w' lo n = field w lo n := by
  rw [← field_putField_self (field w' lo n) lo hle, putField_field, and_eq_and_of_sub h hpart, ← putField_field,
    field_putField_self _ lo hle]

/-! ### A word is one of the words of the row it decodes to (R87) -/

/-- R80: a word under the opcode's mask, by the four bits the decoder looks at. -/
theorem and_opcode_of_bits {w : Word} {b15 b14 b13 b12 : Bool} (h15 : bitAt w 15 = b15) (h14 : bitAt w 14 = b14)
    (h13 : bitAt w 13 = b13) (h12 : bitAt w 12 = b12) :
    w &&& 0xF000 = BitVec.ofBool b15 ++ BitVec.ofBool b14 ++ BitVec.ofBool b13 ++ BitVec.ofBool b12 ++ 0#12 := by
  rw [and_opcode_eq_append, field_opcode, h15, h14, h13, h12]

/-- A word under a mask and one further bit. -/
theorem and_or_twoPow (w m : Word) (i : Nat) :
    w &&& (m ||| BitVec.twoPow 16 i) = (w &&& m) ||| (if bitAt w i then BitVec.twoPow 16 i else 0) := by
  rw [BitVec.and_or_distrib_left, BitVec.and_twoPow]
  rfl

/-- R86, R87: opcode 0xC is the row JMP, and with BaseR = 7 the row RET. -/
theorem row_covers_decodeJump {w : Word} (h : w &&& 0xF000 = 0xC000) :
    (decodeJump (fieldSR1 w)).row.covers w = true := by
  by_cases hret : fieldSR1 w = 7
  · have hbase : w &&& fieldMask 6 3 = 0x01C0 := by
      rw [← putField_field, ← regBits_regOf (field w 6 3), ← fieldSR1, hret]
      rfl
    rw [hret]
    refine beq_iff_eq.mpr ?_
    calc w &&& 0xF1C0
        = (w &&& 0xF000) ||| (w &&& fieldMask 6 3) := by rw [← BitVec.and_or_distrib_left]; rfl
      _ = 0xC1C0 := by rw [h, hbase]; rfl
  · rw [decodeJump_of_ne _ hret]
    exact beq_iff_eq.mpr h

/-- R87, R160: opcode 0xF is the row TRAP, and with a defined vector the row of its service. -/
theorem row_covers_decodeTrap {w : Word} (h : w &&& 0xF000 = 0xF000) :
    (decodeTrap (field w 8 4) (field w 0 8)).row.covers w = true := by
  cases hv : definedVector (field w 0 8) with
  | false =>
    rw [decodeTrap_of_undefined _ _ hv]
    exact beq_iff_eq.mpr h
  | true =>
    have hword : w &&& 0xF0FF = 0xF000 ||| putField (field w 0 8) 0 := by
      rw [putField_field, ← h, ← BitVec.and_or_distrib_left]
      rfl
    have hmem := (definedVector_iff_mem _).mp hv
    simp only [List.mem_cons, List.not_mem_nil, or_false] at hmem
    rcases hmem with hv | hv | hv | hv | hv
    all_goals
      rw [hv] at hword ⊢
      exact beq_iff_eq.mpr hword

/-- R87: the row of the instruction a word decodes to covers the word. -/
theorem row_covers_decodeWord (w : Word) : (decodeWord w).row.covers w = true := by
  unfold decodeWord
  split
  all_goals
    rename_i h15 h14 h13 h12
    have hopcode := and_opcode_of_bits h15 h14 h13 h12
  -- By opcode: ADD (0x1) and AND (0x5) test w[5], 0x4 tests w[11], 0xC is JMP and RET, 0xF is TRAP.
  case h_2 | h_6 =>
    have hform := and_or_twoPow w 0xF000 5
    rw [hopcode] at hform
    split_ifs at hform ⊢ <;> exact beq_iff_eq.mpr hform
  case h_5 =>
    have hform := and_or_twoPow w 0xF000 11
    rw [hopcode] at hform
    split_ifs at hform ⊢ <;> exact beq_iff_eq.mpr hform
  case h_13 => exact row_covers_decodeJump hopcode
  case h_16 => exact row_covers_decodeTrap hopcode
  all_goals exact beq_iff_eq.mpr hopcode

/-- R87: the same, for the instruction by name. -/
theorem and_mask_of_decodeWord {w : Word} {i : Instr} (h : decodeWord w = i) : w &&& i.row.mask = i.row.value :=
  beq_iff_eq.mp (h ▸ row_covers_decodeWord w)

end Sys2Proof
end

section
/-! PROOFS of 30_encoding.md, the bits a format uses (R75, R76). The row of the decoded instruction gives the bits that
the decoder tests; every other bit that the format uses is one of a field, which the encoder puts back where the decoder
read it. -/

namespace Sys2Proof

/-! ### The terms that an opcode's dispatcher leaves (R86, R142, R160) -/

theorem fieldSR1_of_decodeWord_jmp {w : Word} {r : RegIdx} (h : decodeWord w = .jmp r) : fieldSR1 w = r := by
  have hjump := decodeWord_jump (and_mask_of_decodeWord h)
  rw [h, decodeJump] at hjump
  split_ifs at hjump
  exact (Instr.jmp.inj hjump).symm

/-- R87: a TRAP term that a word decodes to has an undefined vector. -/
theorem definedVector_of_decodeWord_trap {w : Word} {unused : BitVec 4} {v : Byte}
    (h : decodeWord w = .trap unused v) : definedVector v = false := by
  have hwf := wellFormed_decodeWord w
  rw [h, Instr.wellFormed] at hwf
  simpa using hwf

/-! ### The decoded instruction's word (R75, R76) -/

/-- R75, R76: a field read from a word and put back agrees with the word on the field's bits. -/
theorem or_putField_field_and {x w m m' u : Word} (lo n : Nat) (h : x &&& u = w &&& m)
    (hm : m ||| fieldMask lo n &&& u = m') : (x ||| putField (field w lo n) lo) &&& u = w &&& m' := by
  rw [BitVec.and_or_distrib_right, h, putField_field, BitVec.and_assoc, ← hm, BitVec.and_or_distrib_left]

/-- R76, R140: BR's three condition bits as fields of one bit. -/
theorem encode_br_fields (w : Word) :
    encode (.br (bitAt w 11) (bitAt w 10) (bitAt w 9) (field w 0 9)) =
      0 ||| putField (field w 11 1) 11 ||| putField (field w 10 1) 10 ||| putField (field w 9 1) 9 |||
        putField (field w 0 9) 0 := by
  have hbit (k : Nat) : BitVec.ofBool (bitAt w k) = field w k 1 :=
    BitVec.eq_of_getLsbD_eq fun i hi => by
      obtain rfl : i = 0 := by omega
      simp [bitAt, field]
  rw [encode, hbit, hbit, hbit]
  simp

/-- R75, R76: the word of a decoded instruction has the word's bits wherever the format uses a bit. The row gives the
opcode's bits, and each field is put back where the decoder read it. -/
theorem encode_decodeWord_and_usedBits (w : Word) :
    encode (decodeWord w) &&& (decodeWord w).usedBits = w &&& (decodeWord w).usedBits := by
  obtain ⟨i, hi⟩ : ∃ i, decodeWord w = i := ⟨_, rfl⟩
  have hrow := and_mask_of_decodeWord hi
  have hused : (decodeWord w).usedBits = i.usedBits := congrArg Instr.usedBits hi
  rw [hused]
  cases i
  all_goals simp only [Instr.row, Instr.usedBits] at hrow ⊢
  case addReg =>
    rw [decodeWord_addReg hrow]
    exact or_putField_field_and 0 3 (or_putField_field_and 6 3 (or_putField_field_and 9 3 hrow.symm rfl) rfl) rfl
  case addImm =>
    rw [decodeWord_addImm hrow]
    exact or_putField_field_and 0 5 (or_putField_field_and 6 3 (or_putField_field_and 9 3 hrow.symm rfl) rfl) rfl
  case andReg =>
    rw [decodeWord_andReg hrow]
    exact or_putField_field_and 0 3 (or_putField_field_and 6 3 (or_putField_field_and 9 3 hrow.symm rfl) rfl) rfl
  case andImm =>
    rw [decodeWord_andImm hrow]
    exact or_putField_field_and 0 5 (or_putField_field_and 6 3 (or_putField_field_and 9 3 hrow.symm rfl) rfl) rfl
  case not =>
    rw [decodeWord_not hrow]
    exact or_putField_field_and 6 3 (or_putField_field_and 9 3 hrow.symm rfl) rfl
  case ld =>
    rw [decodeWord_ld hrow]
    exact or_putField_field_and 0 9 (or_putField_field_and 9 3 hrow.symm rfl) rfl
  case ldi =>
    rw [decodeWord_ldi hrow]
    exact or_putField_field_and 0 9 (or_putField_field_and 9 3 hrow.symm rfl) rfl
  case ldr =>
    rw [decodeWord_ldr hrow]
    exact or_putField_field_and 0 6 (or_putField_field_and 6 3 (or_putField_field_and 9 3 hrow.symm rfl) rfl) rfl
  case lea =>
    rw [decodeWord_lea hrow]
    exact or_putField_field_and 0 9 (or_putField_field_and 9 3 hrow.symm rfl) rfl
  case st =>
    rw [decodeWord_st hrow]
    exact or_putField_field_and 0 9 (or_putField_field_and 9 3 hrow.symm rfl) rfl
  case sti =>
    rw [decodeWord_sti hrow]
    exact or_putField_field_and 0 9 (or_putField_field_and 9 3 hrow.symm rfl) rfl
  case str =>
    rw [decodeWord_str hrow]
    exact or_putField_field_and 0 6 (or_putField_field_and 6 3 (or_putField_field_and 9 3 hrow.symm rfl) rfl) rfl
  case br =>
    rw [decodeWord_br hrow, encode_br_fields]
    exact or_putField_field_and 0 9 (or_putField_field_and 9 1 (or_putField_field_and 10 1
      (or_putField_field_and 11 1 hrow.symm rfl) rfl) rfl) rfl
  case jmp =>
    rw [hi, ← fieldSR1_of_decodeWord_jmp hi]
    exact or_putField_field_and 6 3 hrow.symm rfl
  case jsr =>
    rw [decodeWord_jsr hrow]
    exact or_putField_field_and 0 11 hrow.symm rfl
  case jsrr =>
    rw [decodeWord_jsrr hrow]
    exact or_putField_field_and 6 3 hrow.symm rfl
  case rti | reserved =>
    rw [encode_decodeWord_of_faultKind (congrArg Instr.faultKind hi)]
  case trap =>
    have hkind : (decodeWord w).faultKind = some .unsupportedTrapVector := by
      rw [hi, Instr.faultKind, definedVector_of_decodeWord_trap hi]
      rfl
    rw [encode_decodeWord_of_faultKind hkind]
  case ret | getc | out | puts | inChar | halt =>
    rw [hi]
    exact hrow.symm

/-- Settles O2: the decoder gives the one name of its row, and each format's fields go back where they were read. -/
theorem encodeDecodeKeepsUsedBits : Obligations.EncodeDecodeKeepsUsedBits := by
  unfold Obligations.EncodeDecodeKeepsUsedBits
  exact fun w => ⟨wellFormed_decodeWord w, encode_decodeWord_and_usedBits w⟩

/-! ### Words that agree on the used bits (R75) -/

/-- R75, R87: a format uses every bit that its row fixes. -/
theorem usedBits_and_mask (i : Instr) : i.usedBits &&& i.row.mask = i.row.mask := by
  cases i <;> simp only [Instr.usedBits, Instr.row] <;> rfl

/-- R75, R87: a word that agrees with a row's word on the bits its format uses is one of the row's words. -/
theorem and_mask_of_usedBits {w w' : Word} {i : Instr} (hi : decodeWord w = i)
    (h : w' &&& i.usedBits = w &&& i.usedBits) : w' &&& i.row.mask = i.row.value := by
  rw [and_eq_and_of_sub h (usedBits_and_mask i), and_mask_of_decodeWord hi]

/-- Settles O3: the words are of the same row, and have the same fields there. Where the format uses every bit they are
the same word. -/
theorem dontCareBitsDecodeAlike : Obligations.DontCareBitsDecodeAlike := by
  unfold Obligations.DontCareBitsDecodeAlike
  intro w w' h
  obtain ⟨i, hi⟩ : ∃ i, decodeWord w = i := ⟨_, rfl⟩
  rw [hi] at h
  have hrow := and_mask_of_decodeWord hi
  have hrow' := and_mask_of_usedBits hi h
  obtain ⟨m, hm⟩ : ∃ m, i.usedBits = m := ⟨_, rfl⟩
  rw [hm] at h
  have hDR (hpart : m &&& fieldMask 9 3 = fieldMask 9 3) : fieldDR w' = fieldDR w :=
    congrArg regOf (field_eq_of_and_eq 9 3 h hpart (by decide))
  have hSR1 (hpart : m &&& fieldMask 6 3 = fieldMask 6 3) : fieldSR1 w' = fieldSR1 w :=
    congrArg regOf (field_eq_of_and_eq 6 3 h hpart (by decide))
  have hSR2 (hpart : m &&& fieldMask 0 3 = fieldMask 0 3) : fieldSR2 w' = fieldSR2 w :=
    congrArg regOf (field_eq_of_and_eq 0 3 h hpart (by decide))
  cases i
  all_goals
    simp only [Instr.row] at hrow hrow'
    simp only [Instr.usedBits] at hm
    subst hm
  case addReg => rw [decodeWord_addReg hrow, decodeWord_addReg hrow', hDR rfl, hSR1 rfl, hSR2 rfl]
  case andReg => rw [decodeWord_andReg hrow, decodeWord_andReg hrow', hDR rfl, hSR1 rfl, hSR2 rfl]
  case not => rw [decodeWord_not hrow, decodeWord_not hrow', hDR rfl, hSR1 rfl]
  case jmp => rw [decodeWord_jump hrow, decodeWord_jump hrow', hSR1 rfl]
  case ret =>
    have hopcode {x : Word} (hx : x &&& 0xF1C0 = 0xC1C0) : x &&& 0xF000 = 0xC000 := by
      rw [show (0xC000 : Word) = 0xC1C0 &&& 0xF000 from rfl, ← hx, BitVec.and_assoc]
      rfl
    rw [decodeWord_jump (hopcode hrow), decodeWord_jump (hopcode hrow'), hSR1 rfl]
  case jsrr => rw [decodeWord_jsrr hrow, decodeWord_jsrr hrow', hSR1 rfl]
  case getc | out | puts | inChar | halt =>
    rw [hi]
    exact decodeWord_service hrow' rfl
  all_goals
    obtain rfl : w' = w := by
      rw [← BitVec.and_allOnes (x := w'), ← BitVec.and_allOnes (x := w)]
      exact h
    rfl

end Sys2Proof
end

section
/-! PROOFS of 30_encoding.md, the opcode table (R87), and of the sample words of 95_test_vectors.md. Any two primary
rows differ in a bit that both fix, and the row of a decoded instruction covers its word; so one primary row covers it
and no other. -/

namespace Sys2Proof

/-! ### The opcode table (R87) -/

/-- R87: the 19 rows that refine no other row. -/
def primaryRows : List TableRow := opcodeTable.filter (·.primary)

/-- Two rows that share no word: they differ in a bit that both fix. -/
def TableRow.apart (r r' : TableRow) : Prop := r.value &&& r'.mask ≠ r'.value &&& r.mask

/-- R87: the row of an instruction, or the row that it refines. -/
def Instr.primaryRow : Instr → TableRow
  | .ret => Instr.row (.jmp 0)
  | .getc | .out | .puts | .inChar | .halt => Instr.row (.trap 0 0)
  | i => i.row

theorem TableRow.covers_eq_true_iff (r : TableRow) (w : Word) : r.covers w = true ↔ w &&& r.mask = r.value :=
  beq_iff_eq

theorem TableRow.not_covers_of_apart {r r' : TableRow} {w : Word} (h : r.apart r') (hr : r.covers w = true) :
    ¬ r'.covers w = true := by
  intro hr'
  rw [TableRow.covers_eq_true_iff] at hr hr'
  exact h (by rw [← hr, ← hr', BitVec.and_assoc, BitVec.and_assoc, BitVec.and_comm r.mask])

/-- R87: no word is a word of two primary rows. -/
theorem primaryRows_apart : primaryRows.Pairwise TableRow.apart := by
  unfold TableRow.apart
  decide

theorem row_mem_opcodeTable (i : Instr) : i.row ∈ opcodeTable := by
  cases i <;> simp [opcodeTable, Instr.row]

theorem primaryRow_mem_primaryRows (i : Instr) : i.primaryRow ∈ primaryRows := by
  cases i <;> simp [primaryRows, opcodeTable, Instr.primaryRow, Instr.row]

/-- R87: a row's words are words of the row it refines. -/
theorem primaryRow_covers {i : Instr} {w : Word} (h : i.row.covers w = true) : i.primaryRow.covers w = true := by
  have hmask : i.row.mask &&& i.primaryRow.mask = i.primaryRow.mask := by
    cases i <;> simp only [Instr.row, Instr.primaryRow] <;> rfl
  have hvalue : i.row.value &&& i.primaryRow.mask = i.primaryRow.value := by
    cases i <;> simp only [Instr.row, Instr.primaryRow] <;> rfl
  rw [TableRow.covers_eq_true_iff] at h ⊢
  rw [← hmask, ← BitVec.and_assoc, h, hvalue]

/-- One element of a list is picked out where one is and no two are. -/
theorem length_filter_eq_one {α : Type} {l : List α} {p : α → Bool} {a : α} (hmem : a ∈ l) (ha : p a = true)
    (hpair : l.Pairwise fun x y => p x = true → ¬ p y = true) : (l.filter p).length = 1 := by
  have hkept : a ∈ l.filter p := List.mem_filter.mpr ⟨hmem, ha⟩
  match hl : l.filter p with
  | [] => exact absurd hkept (by simp [hl])
  | [_] => rfl
  | x :: y :: rest =>
    have hx : x ∈ l.filter p := by simp [hl]
    have hy : y ∈ l.filter p := by simp [hl]
    have hxy := hpair.filter p
    rw [hl] at hxy
    exact absurd (List.mem_filter.mp hy).2 (List.rel_of_pairwise_cons hxy (by simp) (List.mem_filter.mp hx).2)

/-- R87: every word is one of exactly one primary row's, the one its instruction is of or refines. -/
theorem length_primaryRows_covers (w : Word) : (primaryRows.filter (·.covers w)).length = 1 :=
  length_filter_eq_one (primaryRow_mem_primaryRows _) (primaryRow_covers (row_covers_decodeWord w))
    (primaryRows_apart.imp TableRow.not_covers_of_apart)

/-- R86, R87: RET's words are JMP's with BaseR = 7. -/
theorem ret_covers_iff (w : Word) :
    (Instr.row .ret).covers w = true ↔ (Instr.row (.jmp 0)).covers w = true ∧ fieldSR1 w = 7 := by
  constructor
  · intro h
    have hword : w &&& 0xF1C0 = 0xC1C0 &&& 0xF1C0 := (TableRow.covers_eq_true_iff _ _).mp h
    exact ⟨primaryRow_covers h, congrArg regOf (field_eq_of_and_eq 6 3 hword rfl (by decide))⟩
  · rintro ⟨hjump, hbase⟩
    have hrow := row_covers_decodeJump ((TableRow.covers_eq_true_iff _ _).mp hjump)
    rwa [hbase] at hrow

/-- R87, R160: TRAP's own row is the primary one of the six that opcode 0xF is made of. -/
theorem primary_row_decodeTrap (unused : BitVec 4) (v : Byte) :
    (decodeTrap unused v).row.primary = !definedVector v := by
  cases hv : definedVector v with
  | false => rw [decodeTrap_of_undefined unused v hv]; rfl
  | true =>
    have hmem := (definedVector_iff_mem v).mp hv
    simp only [List.mem_cons, List.not_mem_nil, or_false] at hmem
    rcases hmem with rfl | rfl | rfl | rfl | rfl <;> rfl

/-- R87: a word of a row that refines another row does not decode to TRAP itself. -/
theorem decodeWord_ne_trap_of_not_primary {r : TableRow} {w : Word} (hr : r ∈ opcodeTable)
    (hprimary : r.primary = false) (h : r.covers w = true) (unused : BitVec 4) (v : Byte) :
    decodeWord w ≠ .trap unused v := by
  have hmem : r ∈ opcodeTable.filter (!·.primary) := List.mem_filter.mpr ⟨hr, by rw [hprimary]; rfl⟩
  have hrows : opcodeTable.filter (!·.primary) =
      [Instr.row .ret, Instr.row .getc, Instr.row .out, Instr.row .puts, Instr.row .inChar, Instr.row .halt] := by
    decide
  rw [hrows] at hmem
  simp only [List.mem_cons, List.not_mem_nil, or_false] at hmem
  rw [TableRow.covers_eq_true_iff] at h
  rcases hmem with rfl | rfl | rfl | rfl | rfl | rfl
  case inl =>
    obtain ⟨hjump, hbase⟩ := (ret_covers_iff w).mp ((TableRow.covers_eq_true_iff _ _).mpr h)
    rw [decodeWord_jump ((TableRow.covers_eq_true_iff _ _).mp hjump), hbase]
    exact Instr.noConfusion
  all_goals
    rw [decodeWord_service h rfl]
    exact Instr.noConfusion

/-- Settles O4: a word's own row is in the table and covers it, so the row that it is of or refines is a primary one;
no two primary rows share a word. A word of opcode 0xF that is in no service's row has an undefined vector. -/
theorem opcodeTablePartitionsTheWords : Obligations.OpcodeTablePartitionsTheWords := by
  unfold Obligations.OpcodeTablePartitionsTheWords
  refine ⟨rfl, rfl, length_primaryRows_covers, fun w => ⟨row_mem_opcodeTable _, row_covers_decodeWord w⟩,
    ret_covers_iff, fun w htrap => ?services⟩
  have hopcode : w &&& 0xF000 = 0xF000 := (TableRow.covers_eq_true_iff _ _).mp htrap
  simp only [List.filter_eq_nil_iff, Bool.and_eq_true, Bool.not_eq_true', not_and]
  constructor
  · intro hnone
    rw [decodeWord_trap hopcode]
    refine decodeTrap_of_undefined _ _ (Bool.eq_false_of_not_eq_true fun hdefined => ?_)
    refine hnone _ (row_mem_opcodeTable _) ?_ (row_covers_decodeTrap hopcode)
    rw [primary_row_decodeTrap, hdefined]
    rfl
  · intro hdecode r hr hprimary hcovers
    exact decodeWord_ne_trap_of_not_primary hr hprimary hcovers _ _ hdecode

/-! ### Sample words -/

/-- Settles O7: the decoder run on nine words. -/
theorem sampleWordsDecode : Obligations.SampleWordsDecode := by
  unfold Obligations.SampleWordsDecode
  decide

end Sys2Proof
end

section
/-! PROOFS of 70_reset_and_hazards.md, the meanings by what they do (R239). The 25 meanings do ten things;
`State.effect` says which of them an instruction does, with its operands read in the given state, and `exec_eq_apply`
ties it to the model. A statement about every instruction is then a statement about ten effects. -/

namespace Sys2Proof.Machine

/-! ### The ten effects -/

/-- What an instruction's meaning does to the state it is given. -/
inductive Effect where
  /-- The PC is set: BR, JMP, RET. -/
  | jump (target : Word)
  /-- A register is written and the flag recomputed: the operate instructions, the loads, LEA. -/
  | write (dr : RegIdx) (v : Word)
  /-- The link, then the PC is set: JSR, JSRR. -/
  | call (target : Word)
  /-- A register is stored: ST, STI, STR. -/
  | store (addr : Word) (sr : RegIdx)
  | getc
  | out
  | puts
  | input
  | halt
  /-- The fatal stop: RTI, the reserved opcode, an undefined vector. -/
  | fatal (kind : FaultKind) (info : Word)

/-- The state that an effect leaves. -/
def Effect.apply (s : State) : Effect → State
  | .jump target => s.setPc target
  | .write dr v => s.writeReg dr v true
  | .call target => s.link.setPc target
  | .store addr sr => s.store sr addr
  | .getc => s.serviceGetc
  | .out => s.serviceOut
  | .puts => s.servicePuts
  | .input => s.serviceIn
  | .halt => s.serviceHalt
  | .fatal kind info => s.raiseFatal kind info

/-- R160: the effect of the dispatcher. -/
def trapEffect (unused : BitVec 4) (v : Byte) : Effect :=
  if v = Config.vecGetc then .getc
  else if v = Config.vecOut then .out
  else if v = Config.vecPuts then .puts
  else if v = Config.vecIn then .input
  else if v = Config.vecHalt then .halt
  else .fatal .unsupportedTrapVector (encode (.trap unused v))

/-- The effect of an instruction, its operands read in the state its meaning is given. -/
def State.effect (s : State) : Instr → Effect
  | .addReg dr sr1 sr2 => .write dr (alu .add (s.readReg sr1) (s.readReg sr2))
  | .addImm dr sr1 imm5 => .write dr (alu .add (s.readReg sr1) (sext imm5))
  | .andReg dr sr1 sr2 => .write dr (alu .and (s.readReg sr1) (s.readReg sr2))
  | .andImm dr sr1 imm5 => .write dr (alu .and (s.readReg sr1) (sext imm5))
  | .not dr sr1 => .write dr (alu .not (s.readReg sr1) 0)
  | .ld dr off => .write dr (s.memRead (s.pcRelative off))
  | .ldi dr off => .write dr (s.memRead (s.indirect off))
  | .ldr dr baseR off => .write dr (s.memRead (s.baseOffset baseR off))
  | .lea dr off => .write dr (s.pcRelative off)
  | .st sr off => .store (s.pcRelative off) sr
  | .sti sr off => .store (s.indirect off) sr
  | .str sr baseR off => .store (s.baseOffset baseR off) sr
  | .br n z p off => .jump (if branchTaken n z p s.cond then s.pcRelative off else s.pc)
  | .jmp baseR => .jump (s.readReg baseR)
  | .ret => .jump (s.readReg 7)
  | .jsr off => .call (s.pcRelative off)
  | .jsrr baseR => .call (s.link.readReg baseR)
  | .rti unused => .fatal .invalidOpcode (encode (.rti unused))
  | .trap unused v => trapEffect unused v
  | .getc => .getc
  | .out => .out
  | .puts => .puts
  | .inChar => .input
  | .halt => .halt
  | .reserved unused => .fatal .invalidOpcode (encode (.reserved unused))

theorem execTrap_eq_apply (unused : BitVec 4) (v : Byte) (s : State) :
    execTrap unused v s = .next ((trapEffect unused v).apply s) := by
  unfold execTrap trapEffect
  split_ifs <;> rfl

/-- R239: every meaning is its effect. -/
theorem exec_eq_apply (i : Instr) (s : State) : exec i s = .next ((s.effect i).apply s) := by
  cases i with
  | br n z p off =>
    change execBr n z p off s = .next (s.setPc (if branchTaken n z p s.cond then s.pcRelative off else s.pc))
    unfold execBr
    split_ifs <;> rfl
  | trap unused v => exact execTrap_eq_apply unused v s
  | _ => rfl

/-- R239: a meaning's next state, whatever it is called, is that of the effect. -/
theorem eq_apply_of_exec {i : Instr} {s t : State} (h : exec i s = .next t) : t = (s.effect i).apply s := by
  rw [exec_eq_apply] at h
  exact (Host.Outcome.next.inj h).symm

/-- R160: a vector is one of the five, or undefined. -/
theorem vector_cases (v : Byte) :
    v = Config.vecGetc ∨ v = Config.vecOut ∨ v = Config.vecPuts ∨ v = Config.vecIn ∨ v = Config.vecHalt ∨
      definedVector v = false := by
  cases hv : definedVector v with
  | false => simp
  | true => simpa [definedVector, or_assoc] using hv

/-- R168: the dispatcher's effect for a vector of no service. -/
theorem trapEffect_of_undefined (unused : BitVec 4) {v : Byte} (h : definedVector v = false) :
    trapEffect unused v = .fatal .unsupportedTrapVector (encode (.trap unused v)) := by
  simp only [definedVector, Bool.or_eq_false_iff, beq_eq_false_iff_ne] at h
  obtain ⟨⟨⟨⟨hgetc, hout⟩, hputs⟩, hin⟩, hhalt⟩ := h
  simp only [trapEffect, hgetc, hout, hputs, hin, hhalt, if_false]

/-! ### What each effect writes, as the model's tables have it -/

/-- The address an effect stores to and the register it stores. -/
def Effect.stored : Effect → Option (Word × RegIdx)
  | .store addr sr => some (addr, sr)
  | _ => none

/-- The registers an effect may write, in this step or in a later substep. -/
def Effect.dests : Effect → List RegIdx
  | .write dr _ => [dr]
  | .call _ => [7]
  | .getc | .input => [0]
  | _ => []

/-- Whether an effect recomputes the flag in this step. -/
def Effect.writesFlag : Effect → Bool
  | .write _ _ => true
  | .call _ => Config.jsrUpdatesFlags
  | _ => false

/-- Whether an effect is a service with console substeps. -/
def Effect.console : Effect → Bool
  | .getc | .out | .puts | .input => true
  | _ => false

/-- R124 to R126: the model's `storeOf` is what the effect stores. -/
theorem storeOf_eq_stored (s : State) (i : Instr) : s.storeOf i = (s.effect i).stored := by
  cases i with
  | trap unused v =>
    change none = (trapEffect unused v).stored
    unfold trapEffect
    split_ifs <;> rfl
  | _ => rfl

/-- R26: the model's `destRegs` is what the effect may write. -/
theorem destRegs_eq_dests (s : State) (i : Instr) : destRegs i = (s.effect i).dests := by
  cases i with
  | trap unused v =>
    change destRegs (.trap unused v) = (trapEffect unused v).dests
    rcases vector_cases v with rfl | rfl | rfl | rfl | rfl | hv
    case inr.inr.inr.inr.inr =>
      rw [trapEffect_of_undefined unused hv, destRegs, if_neg]
      · rfl
      · rintro (rfl | rfl) <;> exact absurd hv (by decide)
    all_goals rfl
  | _ => rfl

/-- R26: the model's flag table is that of the effects. -/
theorem writesFlag_eq (s : State) (i : Instr) : writesFlag i = (s.effect i).writesFlag := by
  cases i with
  | trap unused v =>
    change false = (trapEffect unused v).writesFlag
    unfold trapEffect
    split_ifs <;> rfl
  | _ => rfl

/-- R83: every instruction, every fetch and every substep has a next state. -/
theorem step_total (s : State) : ∃ t, step s = .next t := by
  by_cases hrun : s.run = .running
  · by_cases hservice : s.service = .none
    · rw [step_of_boundary s hrun hservice]
      exact exec_total _ _
    · exact ⟨_, step_of_service s hrun hservice⟩
  · cases hr : s.run with
    | running => exact absurd hr hrun
    | halted => exact ⟨s, step_of_halted s hr⟩
    | faulted kind info => exact ⟨s, by simp only [step, hr]⟩

/-- Settles O39. -/
theorem stepAlwaysAnswersNext : Obligations.StepAlwaysAnswersNext := step_total

/-- Settles O37: `step_of_boundary`, written out. -/
theorem stepRunsTheDecodedInstruction : Obligations.StepRunsTheDecodedInstruction :=
  fun s hrun hservice => step_of_boundary s hrun hservice

end Sys2Proof.Machine
end

section
/-! PROOFS of the machine's invariant (R30, R32, R50, R169), over every step and over the acts of the host. An effect
or a substep writes memory, if at all, by the one write that keeps the canonical form; a service's progress goes down the
prompt; and an effect that stops the core begins no service. -/

namespace Sys2Proof.Machine

/-! ### The progress of a service (R169) -/

/-- R166, R169: what is left of the prompt is a legal progress of IN. -/
theorem legal_inProgress {prompt : List Byte} (h : prompt <:+ Config.inPrompt) : (inProgress prompt).legal = true := by
  cases prompt with
  | nil => rfl
  | cons b rest => exact List.isSuffixOf_iff_suffix.mpr h

/-- R169: a substep goes from a legal progress to a legal one. -/
theorem State.legal_serviceStep {s : State} (h : s.service.legal = true) : s.serviceStep.service.legal = true := by
  rcases s.serviceStep_cases with
    ⟨-, e⟩ | ⟨-, -, e⟩ | ⟨_, _, -, -, e⟩ | ⟨_, -, -, e⟩ | ⟨_, -, -, e⟩ | ⟨b, rest, hs, e⟩ | ⟨_, _, -, -, e⟩ | ⟨_, -, e⟩
  all_goals rw [e]
  · exact h
  · exact h
  · rfl
  · rfl
  · rfl
  · rw [hs] at h
    exact legal_inProgress ((List.suffix_cons b rest).trans (List.isSuffixOf_iff_suffix.mp h))
  · rfl
  · rfl

/-! ### What a substep leaves (R53, R63) -/

/-- R63, R165: a substep only reads memory, and records no program start. -/
theorem State.serviceStep_frame (s : State) :
    s.serviceStep.mem = s.mem ∧ s.serviceStep.programStart = s.programStart := by
  rcases s.serviceStep_cases with
    ⟨-, e⟩ | ⟨-, -, e⟩ | ⟨_, _, -, -, e⟩ | ⟨_, -, -, e⟩ | ⟨_, -, -, e⟩ | ⟨_, _, -, e⟩ | ⟨_, _, -, -, e⟩ | ⟨_, -, e⟩
  all_goals
    rw [e]
    exact ⟨rfl, rfl⟩

@[simp] theorem State.serviceStep_mem (s : State) : s.serviceStep.mem = s.mem := s.serviceStep_frame.1

@[simp] theorem State.serviceStep_programStart (s : State) : s.serviceStep.programStart = s.programStart :=
  s.serviceStep_frame.2

@[simp] theorem State.beginService_mem (s : State) (v : Service) : (s.beginService v).mem = s.mem :=
  State.serviceStep_mem (s.setService v)

/-! ### Memory after an effect (R52) -/

/-- R52, R56, R127: an effect that stores nothing leaves memory. -/
theorem Effect.apply_mem_of_stored_none (s : State) {e : Effect} (h : e.stored = none) : (e.apply s).mem = s.mem := by
  cases e with
  | store addr sr => exact absurd h (Option.some_ne_none _)
  | getc | puts | input => exact s.beginService_mem _
  | _ => rfl

/-- R127: an effect that stores is the store. -/
theorem Effect.apply_of_stored_some (s : State) {e : Effect} {addr : Word} {sr : RegIdx}
    (h : e.stored = some (addr, sr)) : e.apply s = s.store sr addr := by
  cases e with
  | store _ _ =>
    obtain ⟨rfl, rfl⟩ := Prod.mk.inj (Option.some.inj h)
    rfl
  | _ => exact absurd h (Option.some_ne_none _).symm

theorem Effect.wf_apply {s : State} (e : Effect) (h : s.mem.wf = true) : (e.apply s).mem.wf = true := by
  cases he : e.stored with
  | none => rwa [e.apply_mem_of_stored_none s he]
  | some stored => rw [e.apply_of_stored_some s he]; exact s.memWrite_wf _ _ h

/-! ### The invariant -/

theorem State.running_eq_true_iff (s : State) : s.running = true ↔ s.run = .running := by
  unfold State.running
  cases s.run <;> simp

theorem State.inv_iff (s : State) :
    s.inv = true ↔ s.mem.wf = true ∧ s.service.legal = true ∧ (s.run = .running ∨ s.service = .none) := by
  simp only [State.inv, Bool.and_eq_true, Bool.or_eq_true, beq_iff_eq, State.running_eq_true_iff, and_assoc]

/-- With no service under way only memory's form is to be kept. -/
theorem State.inv_of_service_none {s : State} (hmem : s.mem.wf = true) (hservice : s.service = .none) :
    s.inv = true :=
  s.inv_iff.mpr ⟨hmem, by rw [hservice]; rfl, .inr hservice⟩

/-- R169: a substep of a Running core keeps the invariant. -/
theorem State.inv_serviceStep {s : State} (hmem : s.mem.wf = true) (hlegal : s.service.legal = true)
    (hrun : s.run = .running) : s.serviceStep.inv = true :=
  s.serviceStep.inv_iff.mpr
    ⟨by rwa [s.serviceStep_mem], State.legal_serviceStep hlegal, .inl (by rwa [s.serviceStep_run])⟩

/-- R239: so does every effect on a Running core between two instructions. -/
theorem Effect.inv_apply {s : State} (e : Effect) (hmem : s.mem.wf = true) (hrun : s.run = .running)
    (hservice : s.service = .none) : (e.apply s).inv = true := by
  have hwf : (e.apply s).mem.wf = true := e.wf_apply hmem
  cases e with
  | getc | puts => exact State.inv_serviceStep hmem rfl hrun
  | input => exact State.inv_serviceStep hmem (legal_inProgress List.suffix_rfl) hrun
  | _ => exact State.inv_of_service_none hwf hservice

/-- Settles O51: a stopped core stays as it is, a fetch is an effect and a step inside a service is a substep. -/
theorem stepKeepsTheInvariant : Obligations.StepKeepsTheInvariant := by
  unfold Obligations.StepKeepsTheInvariant
  intro s t hinv hstep
  obtain ⟨hmem, hlegal, -⟩ := s.inv_iff.mp hinv
  rcases step_cases s t hstep with ⟨-, rfl⟩ | ⟨hrun, hservice, hexec⟩ | ⟨hrun, -, rfl⟩
  · exact hinv
  · rw [eq_apply_of_exec hexec]
    exact Effect.inv_apply _ hmem hrun hservice
  · exact State.inv_serviceStep hmem hlegal hrun

/-! ### Reset and the host (R230 to R238) -/

theorem State.inv_resetWith {p : ResetParams} (h : p.mem.wf = true) : (State.resetWith p).inv = true :=
  State.inv_of_service_none h rfl

/-- Settles O52: no service is under way at reset, and the named memory is canonical. -/
theorem resetMeetsTheInvariant : Obligations.ResetMeetsTheInvariant :=
  ⟨State.inv_resetWith State.reset_mem_wf, fun _ => State.inv_resetWith⟩

/-- R63, R203: the loader writes memory word by word, or stops the core with no service under way. -/
theorem State.inv_initPc_loadDense {s : State} (data : List Word) (start : Word) (hmem : s.mem.wf = true)
    (hservice : s.service = .none) : (s.loadDense data start).initPc.inv = true := by
  unfold State.loadDense
  split_ifs
  · exact State.inv_of_service_none hmem hservice
  · exact State.inv_of_service_none (Memory.wf_writeWords data s.mem start hmem) hservice

theorem State.inv_of_launch {p : ResetParams} {file : Option (List Byte)} {t : State} (hmem : p.mem.wf = true)
    (h : State.launch p file = .next t) : t.inv = true := by
  cases file with
  | none =>
    obtain rfl := Host.Outcome.next.inj h
    exact State.inv_of_service_none hmem rfl
  | some bytes =>
    cases hparse : parseObject bytes with
    | none =>
      rw [State.launch_of_parseObject_none p hparse] at h
      cases h
    | some image =>
      rw [State.launch_of_parseObject_some p hparse] at h
      obtain rfl := Host.Outcome.next.inj h
      exact State.inv_initPc_loadDense _ _ hmem rfl

/-- R238: `run()` on a core that is not Halted changes nothing. -/
theorem State.hostRun_of_not_halted {s : State} (h : s.run ≠ .halted) : s.hostRun = s := by
  unfold State.hostRun
  split
  next hrun => exact absurd hrun h
  all_goals rfl

/-- R238: `run()` on a Halted core sets it Running. -/
theorem State.hostRun_of_halted {s : State} (h : s.run = .halted) : s.hostRun = { s with run := .running } := by
  simp only [State.hostRun, h]

theorem State.inv_hostRun {s : State} (h : s.inv = true) : s.hostRun.inv = true := by
  by_cases hrun : s.run = .halted
  · obtain ⟨hmem, hlegal, -⟩ := s.inv_iff.mp h
    rw [State.hostRun_of_halted hrun]
    exact (State.inv_iff _).mpr ⟨hmem, hlegal, .inl rfl⟩
  · rwa [State.hostRun_of_not_halted hrun]

/-- Settles O53: the host writes memory by the machine's own write, and leaves no service under way in a core that does
not run. -/
theorem hostKeepsTheInvariant : Obligations.HostKeepsTheInvariant := by
  unfold Obligations.HostKeepsTheInvariant
  refine ⟨fun p file t => State.inv_of_launch, fun s bytes nbits w hinv => ⟨State.inv_hostRun hinv, hinv, ?placed⟩⟩
  case placed =>
    obtain ⟨hmem, -, -⟩ := s.inv_iff.mp hinv
    exact State.inv_of_service_none (Memory.wf_writeWord _ _ _ hmem) rfl

/-- Settles O59. -/
theorem hostRunStartsOnlyAHaltedCore : Obligations.HostRunStartsOnlyAHaltedCore :=
  fun _ => ⟨State.hostRun_of_halted, State.hostRun_of_not_halted⟩

/-- Settles O60: the named parameters read back; an empty list of cells reads as the unlisted byte everywhere. -/
theorem resetHoldsTheNamedValues : Obligations.ResetHoldsTheNamedValues := by
  unfold Obligations.ResetHoldsTheNamedValues
  refine ⟨fun r => ?register, rfl, fun a => ?word, rfl, rfl, rfl, rfl⟩
  case register => exact Vector.getElem_replicate r.isLt
  case word =>
    have hbyte (k : Nat) : State.reset.mem.readByte k = 0 := rfl
    rw [Memory.readWord, hbyte, hbyte]
    rfl

end Sys2Proof.Machine
end

section
/-! PROOFS of 10_state.md and 60_exceptions.md, the run state (R30, R200, R211, R242): what a stopped core does, and
which instruction a Running core has fetched when a step stops it. -/

namespace Sys2Proof

/-! ### The words that stop the core (R84, R167) -/

/-- R167: a word decodes to no TRAP term of HALT's vector, so only HALT itself halts. -/
theorem decodeWord_of_halts {w : Word} (h : (decodeWord w).halts = true) : decodeWord w = .halt := by
  cases hi : decodeWord w with
  | halt => rfl
  | trap unused v =>
    rw [hi] at h
    obtain rfl : v = Config.vecHalt := beq_iff_eq.mp h
    exact absurd (definedVector_of_decodeWord_trap hi) (by decide)
  | _ => rw [hi] at h; exact absurd h Bool.false_ne_true

/-- R84, R201, R202: a word whose instruction has a fatal kind, by its opcode and its vector. -/
theorem opcode_of_faultKind {w : Word} {kind : Machine.FaultKind} (h : (decodeWord w).faultKind = some kind) :
    (kind = .invalidOpcode ∧ (field w 12 4 = 0x8 ∨ field w 12 4 = 0xD)) ∨
      (kind = .unsupportedTrapVector ∧ field w 12 4 = 0xF ∧
        field w 0 8 ∉ [(0x20 : Byte), 0x21, 0x22, 0x23, 0x25]) := by
  rw [faultKind_decodeWord] at h
  split_ifs at h with hinvalid htrap hdefined
  · exact .inl ⟨(Option.some.inj h).symm, hinvalid.symm⟩
  · exact .inr ⟨(Option.some.inj h).symm, htrap, mt (definedVector_iff_mem _).mpr hdefined⟩

end Sys2Proof

namespace Sys2Proof.Machine

/-! ### A stopped core (R200, R211, R238) -/

/-- R200, R211: a Halted or Faulted core does nothing. -/
theorem step_of_not_running {s : State} (h : s.run ≠ .running) : step s = .next s := by
  unfold step
  split
  case h_3 hrun => exact absurd hrun h
  all_goals rfl

theorem steps_of_not_running {s : State} (n : Nat) (h : s.run ≠ .running) : steps n s = .next s :=
  steps_of_fixed s n (step_of_not_running h)

/-- Settles O40: no step leaves a stopped core, and `run()` restarts a Halted one alone. -/
theorem stoppedCoreStaysStopped : Obligations.StoppedCoreStaysStopped := by
  unfold Obligations.StoppedCoreStaysStopped
  refine ⟨fun s n hrun => ?halted, fun s kind info n hrun => ?faulted⟩
  case halted =>
    have hstopped : s.run ≠ .running := ne_of_eq_of_ne hrun RunState.noConfusion
    exact ⟨steps_of_not_running n hstopped, State.hostRun_of_halted hrun, by simp only [State.exitStatus, hrun]⟩
  case faulted =>
    have hstopped : s.run ≠ .running := ne_of_eq_of_ne hrun RunState.noConfusion
    have hhost : s.hostRun = s := State.hostRun_of_not_halted (ne_of_eq_of_ne hrun RunState.noConfusion)
    obtain ⟨-, hexit⟩ := State.never_runs_of_faulted hrun
    rw [hhost]
    exact ⟨steps_of_not_running n hstopped, steps_of_not_running n hstopped, hexit⟩

/-- Settles O36: HALT is one change of the run state, and a Halted core does nothing. -/
theorem haltStopsTheRun : Obligations.HaltStopsTheRun := by
  unfold Obligations.HaltStopsTheRun
  refine ⟨fun w h => decodeWord_service h rfl, rfl, fun s => ⟨rfl, rfl, rfl, fun n => ?stays⟩⟩
  case stays => exact steps_of_not_running n RunState.noConfusion

/-! ### A step that stops a Running core (R30, R200, R242) -/

/-- R162: a Running core that a step stops was between two instructions. -/
theorem exec_of_step_stops {s t : State} (hrun : s.run = .running) (hstep : step s = .next t)
    (hstops : t.run ≠ .running) : s.service = .none ∧ exec s.instruction s.advancePc = .next t := by
  rcases step_cases s t hstep with ⟨hnot, -⟩ | ⟨-, hservice, hexec⟩ | ⟨-, -, rfl⟩
  · exact absurd hrun hnot
  · exact ⟨hservice, hexec⟩
  · exact absurd (s.serviceStep_run.trans hrun) hstops

theorem halts_of_runAfter {s : State} {i : Instr} (hrun : s.run = .running) (h : s.runAfter i = .halted) :
    i.halts = true := by
  unfold State.runAfter at h
  split at h
  · cases h
  · split_ifs at h with hhalts
    · exact hhalts
    · rw [hrun] at h; cases h

theorem faultKind_of_runAfter {s : State} {i : Instr} {kind : FaultKind} {info : Word} (hrun : s.run = .running)
    (h : s.runAfter i = .faulted kind info) : i.faultKind = some kind := by
  unfold State.runAfter at h
  split at h
  · rw [← (RunState.faulted.inj h).1]
    assumption
  · split_ifs at h
    rw [hrun] at h; cases h

/-- Settles O41: the run state after a meaning is Halted for HALT alone, whose words are its row's. -/
theorem onlyHaltEntersHalted : Obligations.OnlyHaltEntersHalted := by
  unfold Obligations.OnlyHaltEntersHalted
  intro s t hrun hstep hhalted
  obtain ⟨hservice, hexec⟩ := exec_of_step_stops hrun hstep (ne_of_eq_of_ne hhalted RunState.noConfusion)
  have hafter := (exec_run _ _ _ hexec).symm.trans hhalted
  have hhalt : s.instruction = .halt := decodeWord_of_halts (halts_of_runAfter hrun hafter)
  rw [hhalt] at hexec
  exact ⟨hservice, and_mask_of_decodeWord hhalt, (Host.Outcome.next.inj hexec).symm⟩

/-- Settles O42: the run state after a meaning is Faulted for the instructions that have a fatal kind alone, and a step
that fetches one of those is the fatal stop with the fetched word. -/
theorem fatalStopIsPrecise : Obligations.FatalStopIsPrecise := by
  unfold Obligations.FatalStopIsPrecise
  intro s t kind info hrun hstep hfaulted
  obtain ⟨hservice, hexec⟩ := exec_of_step_stops hrun hstep (ne_of_eq_of_ne hfaulted RunState.noConfusion)
  have hafter := (exec_run _ _ _ hexec).symm.trans hfaulted
  have hkind : (decodeWord s.fetch).faultKind = some kind := faultKind_of_runAfter hrun hafter
  rw [step_of_faultKind hrun hservice hkind] at hstep
  obtain rfl := Host.Outcome.next.inj hstep
  obtain ⟨-, rfl⟩ := RunState.faulted.inj hfaulted
  exact ⟨hservice, rfl, rfl, opcode_of_faultKind hkind⟩

end Sys2Proof.Machine
end

section
/-! PROOFS of 20_memory.md and 10_state.md, what an instruction and a step change (R20, R22, R26, R52, R61): memory, the
registers and the program start, the flag. Each is a frame of the ten effects and of the substeps. -/

namespace Sys2Proof.Machine

/-! ### Memory (R52, R56, R61, R127) -/

/-- R51, R52: a store's word is the register. -/
theorem State.readWord_store (s : State) (sr : RegIdx) (addr : Word) :
    (s.store sr addr).mem.readWord addr = s.readReg sr :=
  s.mem.readWord_writeWord_same addr (s.readReg sr)

theorem exec_mem_of_storeOf_none {i : Instr} {s t : State} (h : exec i s = .next t) (hstore : s.storeOf i = none) :
    t.mem = s.mem := by
  rw [eq_apply_of_exec h]
  exact Effect.apply_mem_of_stored_none s (by rwa [← storeOf_eq_stored])

theorem exec_of_storeOf_some {i : Instr} {s t : State} {addr : Word} {sr : RegIdx} (h : exec i s = .next t)
    (hstore : s.storeOf i = some (addr, sr)) : t = s.store sr addr := by
  rw [eq_apply_of_exec h]
  exact Effect.apply_of_stored_some s (by rwa [← storeOf_eq_stored])

/-- Settles O43: an effect is a store or leaves memory, and a substep leaves it. -/
theorem onlyStoresWriteMemory : Obligations.OnlyStoresWriteMemory := by
  unfold Obligations.OnlyStoresWriteMemory
  refine ⟨fun i s t hexec => ⟨fun hnone k => ?kept, fun addr sr hsome => ?stored⟩,
    fun s t hstep => ⟨fun hnone k => ?stepKept, fun addr sr hrun hservice hsome => ?stepStored⟩⟩
  case kept => rw [exec_mem_of_storeOf_none hexec hnone]
  case stored =>
    obtain rfl := exec_of_storeOf_some hexec hsome
    exact ⟨s.readWord_store sr addr, s.sameMemoryBut_store sr addr⟩
  case stepKept =>
    rcases step_cases s t hstep with ⟨-, rfl⟩ | ⟨hrun, hservice, hexec⟩ | ⟨-, -, rfl⟩
    · rfl
    · have hstore : s.advancePc.storeOf s.instruction = none := by simpa [hrun, hservice] using hnone
      rw [exec_mem_of_storeOf_none hexec hstore]
      rfl
    · rw [s.serviceStep_mem]
  case stepStored =>
    rw [step_of_boundary s hrun hservice] at hstep
    obtain rfl := exec_of_storeOf_some hstep hsome
    exact ⟨s.advancePc.readWord_store sr addr, s.advancePc.sameMemoryBut_store sr addr⟩

/-- Settles O50: the store leaves the core Running between two instructions with the PC at the stored word. -/
theorem storedWordIsTheNextInstruction : Obligations.StoredWordIsTheNextInstruction := by
  unfold Obligations.StoredWordIsTheNextInstruction
  intro s sr hrun hservice hstore
  have hstep : step s = .next (s.advancePc.store sr (s.pc + 1)) := by
    rw [step_of_boundary s hrun hservice, exec_eq_apply,
      Effect.apply_of_stored_some _ ((storeOf_eq_stored _ _).symm.trans hstore)]
  have hfetch : (s.advancePc.store sr (s.pc + 1)).fetch = s.readReg sr :=
    s.advancePc.readWord_store sr (s.pc + 1)
  have hpc : s.pc + 2 = s.pc + 1 + 1 := (BitVec.add_assoc s.pc 1 1).symm
  refine ⟨_, hstep, rfl, ?_⟩
  rw [step_of_boundary (s.advancePc.store sr (s.pc + 1)) hrun hservice, State.instruction, hfetch, hpc]
  rfl

/-! ### Registers and the program start (R20, R26, R63) -/

/-- R163, R166: a substep writes no register but R0. -/
theorem State.serviceStep_readReg (s : State) {r : RegIdx} (h : r ≠ 0) : s.serviceStep.readReg r = s.readReg r := by
  have hwrite (v : Word) : (s.gpr.set (0 : RegIdx) v)[r] = s.gpr[r] := s.readReg_writeReg_ne 0 r v false h
  rcases s.serviceStep_cases with
    ⟨-, e⟩ | ⟨-, -, e⟩ | ⟨_, _, -, -, e⟩ | ⟨_, -, -, e⟩ | ⟨_, -, -, e⟩ | ⟨_, _, -, e⟩ | ⟨_, _, -, -, e⟩ | ⟨_, -, e⟩
  · rw [e]
  · rw [e]
  · rw [e]; exact hwrite _
  · rw [e]; rfl
  · rw [e]; rfl
  · rw [e]; rfl
  · rw [e]; rfl
  · rw [e]; exact hwrite _

/-- R165: PUTS writes none. -/
theorem State.servicePuts_readReg (s : State) (r : RegIdx) : s.servicePuts.readReg r = s.readReg r := by
  change (State.putsSubstep (s.readReg 0) (s.setService (.puts (s.readReg 0)))).readReg r = s.readReg r
  unfold State.putsSubstep
  split_ifs <;> rfl

/-- R20, R26: an effect writes no register but its destination. -/
theorem Effect.apply_readReg (s : State) {e : Effect} {r : RegIdx} (h : r ∉ e.dests) :
    (e.apply s).readReg r = s.readReg r := by
  cases e with
  | write dr v => exact s.readReg_writeReg_ne dr r v true (List.ne_of_not_mem_cons h)
  | call target => exact s.readReg_writeReg_ne 7 r s.pc Config.jsrUpdatesFlags (List.ne_of_not_mem_cons h)
  | getc | input => exact State.serviceStep_readReg _ (List.ne_of_not_mem_cons h)
  | puts => exact s.servicePuts_readReg r
  | _ => rfl

/-- R63: only a load records a program start. -/
theorem Effect.apply_programStart (s : State) (e : Effect) : (e.apply s).programStart = s.programStart := by
  cases e with
  | getc | puts | input => exact State.serviceStep_programStart (s.setService _)
  | _ => rfl

/-- Settles O44: the destinations of the effect are the instruction's, and a substep writes R0 alone. -/
theorem onlyDestinationRegistersChange : Obligations.OnlyDestinationRegistersChange := by
  have hexecFrame (i : Instr) (s t : State) (h : exec i s = .next t) :
      sameRegsBut (destRegs i) s t ∧ t.programStart = s.programStart := by
    rw [eq_apply_of_exec h, destRegs_eq_dests s]
    exact ⟨fun r hr => Effect.apply_readReg s hr, Effect.apply_programStart s _⟩
  refine ⟨hexecFrame, fun s t hstep => ?step⟩
  rcases step_cases s t hstep with ⟨hrun, rfl⟩ | ⟨hrun, hservice, hexec⟩ | ⟨hrun, hservice, rfl⟩
  · exact ⟨rfl, fun _ => rfl, fun h => absurd h hrun, fun _ _ _ => rfl⟩
  · obtain ⟨hregs, hstart⟩ := hexecFrame _ _ _ hexec
    exact ⟨hstart, absurd hrun, fun _ _ => hregs, absurd hservice⟩
  · exact ⟨s.serviceStep_programStart, absurd hrun, fun _ h => absurd h hservice,
      fun _ r hr => s.serviceStep_readReg (List.ne_of_not_mem_cons hr)⟩

/-! ### The flag (R22, R26) -/

/-- R166, R169: no substep but IN's last touches the flag. -/
theorem State.serviceStep_cond (s : State) (h : ∀ b, s.service ≠ .inEcho b) : s.serviceStep.cond = s.cond := by
  rcases s.serviceStep_cases with
    ⟨-, e⟩ | ⟨-, -, e⟩ | ⟨_, _, -, -, e⟩ | ⟨_, -, -, e⟩ | ⟨_, -, -, e⟩ | ⟨_, _, -, e⟩ | ⟨_, _, -, -, e⟩ | ⟨b, hs, -⟩
  iterate 7 rw [e]
  exact absurd hs (h b)

/-- R166: IN's last substep leaves the flag of R0 under its parameter. -/
theorem State.serviceStep_cond_of_inEcho {s : State} {b : Byte} (h : s.service = .inEcho b) :
    s.serviceStep.cond = if Config.inUpdatesFlags then signFlag (s.serviceStep.readReg 0) else s.cond := by
  have hstep : s.serviceStep = s.inEchoSubstep b := by simp only [State.serviceStep, h]
  have hr0 : (s.inEchoSubstep b).readReg 0 = zextByte b :=
    (s.conWrite b).readReg_writeReg_same 0 (zextByte b) Config.inUpdatesFlags
  rw [hstep, hr0, ← setCC_eq_signFlag]
  rfl

theorem inProgress_ne_inEcho (prompt : List Byte) (b : Byte) : inProgress prompt ≠ .inEcho b := by
  cases prompt <;> exact Service.noConfusion

/-- R26: an effect that the flag table leaves out leaves the flag. -/
theorem Effect.apply_cond_of_not_writesFlag (s : State) {e : Effect} (h : e.writesFlag = false) :
    (e.apply s).cond = s.cond := by
  cases e with
  | write dr v => exact absurd h Bool.noConfusion
  | call target =>
    have hparam : Config.jsrUpdatesFlags = false := h
    change (if Config.jsrUpdatesFlags then setCC s.pc else s.cond) = s.cond
    rw [hparam]
    rfl
  | getc | puts => exact State.serviceStep_cond (s.setService _) fun _ => Service.noConfusion
  | input => exact State.serviceStep_cond (s.setService _) (inProgress_ne_inEcho Config.inPrompt)
  | _ => rfl

/-- R22, R26: an effect that the flag table has leaves the flag of the one register it writes. -/
theorem Effect.apply_cond_of_writesFlag (s : State) {e : Effect} (h : e.writesFlag = true) :
    ∃ d, e.dests = [d] ∧ (e.apply s).cond = signFlag ((e.apply s).readReg d) := by
  cases e with
  | write dr v =>
    refine ⟨dr, rfl, ?_⟩
    rw [Effect.apply, State.readReg_writeReg_same, State.writeReg_cond_true, setCC_eq_signFlag]
  | call target =>
    have hparam : Config.jsrUpdatesFlags = true := h
    have hr7 : s.link.readReg 7 = s.pc := s.readReg_writeReg_same 7 s.pc _
    refine ⟨7, rfl, ?_⟩
    rw [Effect.apply, State.setPc_readReg, State.setPc_cond, hr7, State.link_eq_signFlag, hparam]
    rfl
  | _ => exact absurd h Bool.noConfusion

/-- Settles O45: the flag table is that of the effects, and only IN's last substep can touch the flag. -/
theorem flagFollowsItsTable : Obligations.FlagFollowsItsTable := by
  unfold Obligations.FlagFollowsItsTable
  refine ⟨fun i s t hexec => ?meaning, fun s t hservice hstep => ?substep⟩
  case meaning =>
    rw [eq_apply_of_exec hexec, writesFlag_eq s, destRegs_eq_dests s]
    exact ⟨Effect.apply_cond_of_not_writesFlag s, Effect.apply_cond_of_writesFlag s⟩
  case substep =>
    rcases step_cases s t hstep with ⟨hrun, rfl⟩ | ⟨-, hnone, -⟩ | ⟨-, -, rfl⟩
    · exact ⟨.inl rfl, fun h => absurd h hrun⟩
    · exact absurd hnone hservice
    · refine ⟨?_, fun _ b hb => State.serviceStep_cond_of_inEcho hb⟩
      by_cases hecho : ∃ b, s.service = .inEcho b
      · obtain ⟨b, hb⟩ := hecho
        have hcond := State.serviceStep_cond_of_inEcho hb
        split_ifs at hcond with hparam
        · exact .inr ⟨hparam, ⟨b, hb⟩, hcond⟩
        · exact .inl hcond
      · exact .inl (s.serviceStep_cond (not_exists.mp hecho))

end Sys2Proof.Machine
end

section
/-! PROOFS of 43_trap.md and 10_state.md, what a step takes from and gives to the console, and what it does not read
(R26, R53, R161): the input and the output are the services' alone, the flag is BR's and the unread input is that of the
two reads. -/

namespace Sys2Proof.Machine

/-! ### The console (R53, R161) -/

/-- R161, log 9: `t` comes of `s` by at most one byte read and at most one byte written. -/
def consoleStep (s t : State) : Prop :=
  ∃ taken written : List Byte, s.cin = taken ++ t.cin ∧ t.cout = s.cout ++ written ∧
    taken.length ≤ 1 ∧ written.length ≤ 1

theorem consoleStep_of_eq {s t : State} (hcin : t.cin = s.cin) (hcout : t.cout = s.cout) : consoleStep s t :=
  ⟨[], [], hcin.symm, by rw [hcout, List.append_nil], Nat.zero_le 1, Nat.zero_le 1⟩

/-- R161: one byte taken, nothing written. -/
theorem consoleStep_of_read {s t : State} {b : Byte} (hcin : s.cin = b :: t.cin) (hcout : t.cout = s.cout) :
    consoleStep s t :=
  ⟨[b], [], hcin, by rw [hcout, List.append_nil], Nat.le_refl 1, Nat.zero_le 1⟩

/-- R161: one byte written, nothing taken. -/
theorem consoleStep_of_write {s t : State} {b : Byte} (hcin : t.cin = s.cin) (hcout : t.cout = s.cout ++ [b]) :
    consoleStep s t :=
  ⟨[], [b], hcin.symm, hcout, Nat.zero_le 1, Nat.le_refl 1⟩

/-- R169: a substep is one console event, or none. -/
theorem State.consoleStep_serviceStep (s : State) : consoleStep s s.serviceStep := by
  rcases s.serviceStep_cases with
    ⟨-, e⟩ | ⟨-, -, e⟩ | ⟨b, rest, -, hcin, e⟩ | ⟨_, -, -, e⟩ | ⟨_, -, -, e⟩ | ⟨_, _, -, e⟩ | ⟨b, rest, -, hcin, e⟩ |
      ⟨_, -, e⟩
  all_goals rw [e]
  · exact consoleStep_of_eq rfl rfl
  · exact consoleStep_of_eq rfl rfl
  · exact consoleStep_of_read hcin rfl
  · exact consoleStep_of_eq rfl rfl
  · exact consoleStep_of_write rfl rfl
  · exact consoleStep_of_write rfl rfl
  · exact consoleStep_of_read hcin rfl
  · exact consoleStep_of_write rfl rfl

theorem State.consoleStep_beginService (s : State) (v : Service) : consoleStep s (s.beginService v) :=
  State.consoleStep_serviceStep (s.setService v)

/-- R53, R161: so is an effect. -/
theorem Effect.consoleStep_apply (s : State) (e : Effect) : consoleStep s (e.apply s) := by
  cases e with
  | getc | puts | input => exact s.consoleStep_beginService _
  | out => exact consoleStep_of_write rfl rfl
  | _ => exact consoleStep_of_eq rfl rfl

/-- R53: an effect that is no console service leaves the console. -/
theorem Effect.apply_console (s : State) {e : Effect} (h : e.console = false) :
    (e.apply s).cin = s.cin ∧ (e.apply s).cout = s.cout := by
  cases e with
  | getc | out | puts | input => exact absurd h Bool.noConfusion
  | _ => exact ⟨rfl, rfl⟩

/-- R53, R160: the console services are the effects of four instructions, among those that a word decodes to. -/
theorem instruction_of_console {s : State} {w : Word} (h : (s.effect (decodeWord w)).console = true) :
    decodeWord w = .getc ∨ decodeWord w = .out ∨ decodeWord w = .puts ∨ decodeWord w = .inChar := by
  cases hi : decodeWord w with
  | getc | out | puts | inChar => simp
  | trap unused v =>
    rw [hi, State.effect, trapEffect_of_undefined unused (definedVector_of_decodeWord_trap hi)] at h
    exact absurd h Bool.noConfusion
  | _ =>
    rw [hi] at h
    exact absurd h Bool.noConfusion

/-- Settles O47: every step is at most one console event of each kind, and an effect that touches the console is one of
the four services. -/
theorem onlyTrapServicesTouchTheConsole : Obligations.OnlyTrapServicesTouchTheConsole := by
  unfold Obligations.OnlyTrapServicesTouchTheConsole
  intro s t hstep
  rcases step_cases s t hstep with ⟨-, rfl⟩ | ⟨hrun, -, hexec⟩ | ⟨-, hservice, rfl⟩
  · exact ⟨[], [], rfl, (List.append_nil _).symm, Nat.zero_le 1, Nat.zero_le 1, fun _ h => by simp at h⟩
  · rw [eq_apply_of_exec hexec]
    obtain ⟨taken, written, hcin, hcout, htaken, hwritten⟩ :=
      (s.advancePc.effect s.instruction).consoleStep_apply s.advancePc
    refine ⟨taken, written, hcin, hcout, htaken, hwritten, fun _ htouched => ⟨hrun, ?_⟩⟩
    suffices hconsole : (s.advancePc.effect s.instruction).console = true from instruction_of_console hconsole
    refine Bool.eq_true_of_not_eq_false fun hquiet => ?_
    obtain ⟨hcin', hcout'⟩ := Effect.apply_console s.advancePc hquiet
    rw [hcin'] at hcin
    rw [hcout'] at hcout
    rcases htouched with htaken' | hwritten'
    · exact htaken' (List.self_eq_append_left.mp hcin)
    · exact hwritten' (List.self_eq_append_right.mp hcout)
  · obtain ⟨taken, written, hcin, hcout, htaken, hwritten⟩ := s.consoleStep_serviceStep
    exact ⟨taken, written, hcin, hcout, htaken, hwritten, fun h => absurd h hservice⟩

/-! ### The flag is read by BR alone (R26) -/

/-- The state with another flag. -/
def State.setCond (s : State) (c : Cond) : State := { s with cond := c }

/-- R26: only BR's effect depends on the flag. -/
theorem State.effect_setCond (s : State) (c : Cond) {i : Instr} (h : ∀ n z p off, i ≠ .br n z p off) :
    (s.setCond c).effect i = s.effect i := by
  cases i with
  | br n z p off => exact absurd rfl (h n z p off)
  | _ => rfl

theorem State.getcSubstep_setCond (s : State) (c : Cond) : (s.setCond c).getcSubstep = s.getcSubstep.setCond c := by
  cases hcin : s.cin with
  | nil => rw [s.getcSubstep_nil hcin, (s.setCond c).getcSubstep_nil hcin]
  | cons b rest =>
    rw [s.getcSubstep_cons b rest hcin, (s.setCond c).getcSubstep_cons b rest hcin]
    rfl

theorem State.inReadSubstep_setCond (s : State) (c : Cond) :
    (s.setCond c).inReadSubstep = s.inReadSubstep.setCond c := by
  cases hcin : s.cin with
  | nil => rw [s.inReadSubstep_nil hcin, (s.setCond c).inReadSubstep_nil hcin]
  | cons b rest =>
    rw [s.inReadSubstep_cons b rest hcin, (s.setCond c).inReadSubstep_cons b rest hcin]
    rfl

theorem State.putsSubstep_setCond (s : State) (c : Cond) (addr : Word) :
    (s.setCond c).putsSubstep addr = (s.putsSubstep addr).setCond c := by
  by_cases hend : lowByte (s.memRead addr) = 0#8
  · rw [s.putsSubstep_end addr hend, (s.setCond c).putsSubstep_end addr hend]
    rfl
  · rw [s.putsSubstep_char addr hend, (s.setCond c).putsSubstep_char addr hend]
    rfl

/-- R26, R166: a substep keeps the flag it is given, or writes one that does not depend on it. -/
theorem State.serviceStep_setCond (s : State) (c : Cond) :
    ∃ c', (s.setCond c).serviceStep = s.serviceStep.setCond c' := by
  have hservice : (s.setCond c).service = s.service := rfl
  unfold State.serviceStep
  rw [hservice]
  cases s.service with
  | getc => exact ⟨c, s.getcSubstep_setCond c⟩
  | puts addr => exact ⟨c, s.putsSubstep_setCond c addr⟩
  | inRead => exact ⟨c, s.inReadSubstep_setCond c⟩
  | none | inPrompt | inEcho => exact ⟨_, rfl⟩

theorem State.beginService_setCond (s : State) (c : Cond) (v : Service) :
    ∃ c', (s.setCond c).beginService v = (s.beginService v).setCond c' :=
  State.serviceStep_setCond (s.setService v) c

/-- R26: an effect on states that differ in the flag alone leaves states that differ in the flag alone. -/
theorem Effect.apply_setCond (s : State) (c : Cond) (e : Effect) :
    ∃ c', e.apply (s.setCond c) = (e.apply s).setCond c' := by
  cases e with
  | getc => exact s.beginService_setCond c .getc
  | puts => exact s.beginService_setCond c (.puts (s.readReg 0))
  | input => exact s.beginService_setCond c (inProgress Config.inPrompt)
  | _ => exact ⟨_, rfl⟩

/-- Settles O48: the fetch does not read the flag, and neither does any effect but BR's choice of its target. -/
theorem onlyBranchReadsTheFlag : Obligations.OnlyBranchReadsTheFlag := by
  unfold Obligations.OnlyBranchReadsTheFlag
  intro s t c hstep hnotBr
  change ∃ c', step (s.setCond c) = .next (t.setCond c')
  rcases step_cases s t hstep with ⟨hrun, rfl⟩ | ⟨hrun, hservice, hexec⟩ | ⟨hrun, hservice, rfl⟩
  · exact ⟨c, step_of_not_running hrun⟩
  · have hinstr : ∀ n z p off, s.instruction ≠ .br n z p off := hnotBr.resolve_left (absurd hservice)
    have hnext : step (s.setCond c) = .next ((s.advancePc.effect s.instruction).apply (s.advancePc.setCond c)) := by
      rw [step_of_boundary (s.setCond c) hrun hservice, ← s.advancePc.effect_setCond c hinstr]
      exact exec_eq_apply _ _
    obtain ⟨c', happly⟩ := Effect.apply_setCond s.advancePc c (s.advancePc.effect s.instruction)
    exact ⟨c', by rw [hnext, happly, eq_apply_of_exec hexec]⟩
  · obtain ⟨c', hsubstep⟩ := s.serviceStep_setCond c
    exact ⟨c', by rw [step_of_service (s.setCond c) hrun hservice, hsubstep]⟩

/-! ### The unread input is read by GETC and IN alone (R161) -/

theorem State.effect_setInput (s : State) (bytes : List Byte) (i : Instr) :
    (s.setInput bytes).effect i = s.effect i := by
  cases i <;> rfl

theorem State.putsSubstep_setInput (s : State) (bytes : List Byte) (addr : Word) :
    (s.setInput bytes).putsSubstep addr = (s.putsSubstep addr).setInput bytes := by
  by_cases hend : lowByte (s.memRead addr) = 0#8
  · rw [s.putsSubstep_end addr hend, (s.setInput bytes).putsSubstep_end addr hend]
    rfl
  · rw [s.putsSubstep_char addr hend, (s.setInput bytes).putsSubstep_char addr hend]
    rfl

/-- R161: no substep but the two reads depends on the unread input. -/
theorem State.serviceStep_setInput (s : State) (bytes : List Byte) (hgetc : s.service ≠ .getc)
    (hread : s.service ≠ .inRead) : (s.setInput bytes).serviceStep = s.serviceStep.setInput bytes := by
  have hservice : (s.setInput bytes).service = s.service := rfl
  unfold State.serviceStep
  rw [hservice]
  cases hs : s.service with
  | getc => exact absurd hs hgetc
  | inRead => exact absurd hs hread
  | puts addr => exact s.putsSubstep_setInput bytes addr
  | none | inPrompt | inEcho => rfl

/-- R161: nor does any effect but those of GETC and IN. -/
theorem Effect.apply_setInput (s : State) (bytes : List Byte) {e : Effect} (hgetc : e ≠ .getc) (hinput : e ≠ .input) :
    e.apply (s.setInput bytes) = (e.apply s).setInput bytes := by
  cases e with
  | getc => exact absurd rfl hgetc
  | input => exact absurd rfl hinput
  | puts =>
    exact State.serviceStep_setInput (s.setService (.puts (s.readReg 0))) bytes Service.noConfusion Service.noConfusion
  | _ => rfl

/-- R160, R163, R166: GETC's and IN's effects are those of their own instructions, among those a word decodes to. -/
theorem effect_ne_read {s : State} {w : Word} (hgetc : decodeWord w ≠ .getc) (hin : decodeWord w ≠ .inChar) :
    s.effect (decodeWord w) ≠ .getc ∧ s.effect (decodeWord w) ≠ .input := by
  cases hi : decodeWord w with
  | getc => exact absurd hi hgetc
  | inChar => exact absurd hi hin
  | trap unused v =>
    rw [State.effect, trapEffect_of_undefined unused (definedVector_of_decodeWord_trap hi)]
    exact ⟨Effect.noConfusion, Effect.noConfusion⟩
  | _ => exact ⟨Effect.noConfusion, Effect.noConfusion⟩

/-- Settles O49: the fetch does not read the input, and neither does any effect or substep but the reads. -/
theorem unreadInputBearsOnNoOtherStep : Obligations.UnreadInputBearsOnNoOtherStep := by
  unfold Obligations.UnreadInputBearsOnNoOtherStep
  intro s t bytes hstep hgetc hread hinstr
  change step (s.setInput bytes) = .next (t.setInput bytes)
  rcases step_cases s t hstep with ⟨hrun, rfl⟩ | ⟨hrun, hservice, hexec⟩ | ⟨hrun, hservice, rfl⟩
  · exact step_of_not_running hrun
  · obtain ⟨hnotGetc, hnotIn⟩ := hinstr hservice
    obtain ⟨heffectGetc, heffectIn⟩ := effect_ne_read (s := s.advancePc) hnotGetc hnotIn
    have hnext : step (s.setInput bytes) =
        .next ((s.advancePc.effect s.instruction).apply (s.advancePc.setInput bytes)) := by
      rw [step_of_boundary (s.setInput bytes) hrun hservice, ← s.advancePc.effect_setInput bytes]
      exact exec_eq_apply _ _
    rw [hnext, eq_apply_of_exec hexec]
    exact congrArg _ (Effect.apply_setInput s.advancePc bytes heffectGetc heffectIn)
  · rw [step_of_service (s.setInput bytes) hrun hservice, s.serviceStep_setInput bytes hgetc hread]

end Sys2Proof.Machine
end

section
/-! PROOFS of 43_trap.md, the services with console substeps (R161 to R166, R169). A service begins with its first
substep, so what the steps after its TRAP do is what the steps from the recorded service do, one more of them; those are an
induction over the string that PUTS writes, or over the prompt of IN. -/

namespace Sys2Proof.Machine

/-! ### Several steps, inside a service -/

/-- Steps go on from where the first of them lead. -/
theorem steps_add {s t : State} (m n : Nat) (h : steps m s = .next t) : steps (m + n) s = steps n t := by
  induction m generalizing s with
  | zero => rw [Nat.zero_add, Host.Outcome.next.inj h]
  | succ m ih =>
    obtain ⟨u, hstep⟩ := step_total s
    rw [steps_succ s u m hstep] at h
    rw [Nat.add_right_comm, steps_succ s u (m + n) hstep, ih h]

/-- R160, R169: the steps after a service has begun, counted from the service recorded. -/
theorem steps_beginService {s : State} {v : Service} (n : Nat) (hrun : s.run = .running) (hv : v ≠ .none) :
    steps n (s.beginService v) = steps (n + 1) (s.setService v) :=
  (steps_succ (s.setService v) (s.beginService v) n (step_of_service (s.setService v) hrun hv)).symm

/-! ### GETC (R161, R163) -/

theorem exec_getc (s : State) : exec .getc s = .next (s.beginService .getc) := rfl

/-- R163: GETC with a byte available. -/
theorem State.beginService_getc_cons {s : State} {b : Byte} {rest : List Byte} (h : s.cin = b :: rest) :
    s.beginService .getc = { s with gpr := s.gpr.set 0 (b.setWidth 16), cin := rest, service := .none } :=
  (s.setService .getc).getcSubstep_cons b rest h

/-- R161: GETC with no byte available changes nothing but the progress. -/
theorem State.beginService_getc_nil {s : State} (h : s.cin = []) : s.beginService .getc = s.setService .getc :=
  (s.setService .getc).getcSubstep_nil h

theorem step_of_getc {s : State} (hrun : s.run = .running) (hservice : s.service = .getc) :
    step s = .next s.getcSubstep := by
  simp only [step, State.serviceStep, hrun, hservice]

/-- R161, log 10: a Running core that waits in GETC answers the same state. -/
theorem step_of_getc_nil {s : State} (hrun : s.run = .running) (hservice : s.service = .getc) (hcin : s.cin = []) :
    step s = .next s := by
  rw [step_of_getc hrun hservice, s.getcSubstep_nil hcin]

/-- Settles O30: the first substep reads, or is the wait. -/
theorem getcReadsOneCharacter : Obligations.GetcReadsOneCharacter := by
  unfold Obligations.GetcReadsOneCharacter
  refine ⟨fun w h => decodeWord_service h rfl, rfl, fun s b rest hcin => ?read,
    fun s hcin hrun => ⟨?wait, fun n => ?stays⟩⟩
  case read => rw [exec_getc, State.beginService_getc_cons hcin]
  case wait =>
    rw [exec_getc, State.beginService_getc_nil hcin]
    rfl
  case stays => exact steps_of_fixed _ n (step_of_getc_nil hrun rfl hcin)

/-! ### PUTS (R165) -/

theorem exec_puts (s : State) : exec .puts s = .next (s.beginService (.puts s.gpr[(0 : RegIdx)])) := rfl

/-- R165: the substep at a character that is not the terminator. -/
theorem step_of_puts_char {s : State} {addr : Word} (hrun : s.run = .running)
    (h : (s.mem.readWord addr).setWidth 8 ≠ (0 : Byte)) :
    step (s.setService (.puts addr)) =
      .next ((s.conWrite ((s.mem.readWord addr).setWidth 8)).setService (.puts (addr + 1))) := by
  rw [← lowByte_eq_setWidth] at h ⊢
  rw [step_of_service (s.setService (.puts addr)) hrun Service.noConfusion]
  exact congrArg _ ((s.setService (.puts addr)).putsSubstep_char addr h)

/-- R165: the substep at the terminator. -/
theorem step_of_puts_end {s : State} {addr : Word} (hrun : s.run = .running)
    (h : (s.mem.readWord addr).setWidth 8 = (0 : Byte)) :
    step (s.setService (.puts addr)) = .next (s.setService .none) := by
  rw [← lowByte_eq_setWidth] at h
  rw [step_of_service (s.setService (.puts addr)) hrun Service.noConfusion]
  exact congrArg _ ((s.setService (.puts addr)).putsSubstep_end addr h)

/-- R165: memory holds the string `text` from `addr` up, and then a terminator. -/
def Memory.holdsString (m : Memory) (addr : Word) (text : List Byte) : Prop :=
  (∀ (k : Nat) (h : k < text.length), (m.readWord (addr + BitVec.ofNat 16 k)).setWidth 8 = text[k] ∧ text[k] ≠ 0) ∧
    (m.readWord (addr + BitVec.ofNat 16 text.length)).setWidth 8 = (0 : Byte)

theorem Memory.holdsString_nil {m : Memory} {addr : Word} (h : m.holdsString addr []) :
    (m.readWord addr).setWidth 8 = (0 : Byte) := by
  obtain ⟨-, hend⟩ := h
  simpa using hend

/-- R165: the string after its first character is a string from the next address. -/
theorem Memory.holdsString_cons {m : Memory} {addr : Word} {b : Byte} {text : List Byte}
    (h : m.holdsString addr (b :: text)) :
    (m.readWord addr).setWidth 8 = b ∧ b ≠ 0 ∧ m.holdsString (addr + 1) text := by
  obtain ⟨hchars, hend⟩ := h
  obtain ⟨hfirst, hne⟩ := hchars 0 (Nat.zero_lt_succ _)
  refine ⟨by simpa using hfirst, hne, fun k hk => ?_, ?_⟩
  · rw [← add_ofNat_succ]
    exact hchars (k + 1) (Nat.succ_lt_succ hk)
  · rw [← add_ofNat_succ]
    exact hend

/-- R165, R169: PUTS writes the string, one character in each step, and its last step finds the terminator. -/
theorem steps_of_puts {s : State} {addr : Word} {text : List Byte} (hrun : s.run = .running)
    (h : s.mem.holdsString addr text) :
    steps (text.length + 1) (s.setService (.puts addr)) =
      .next { s with cout := s.cout ++ text, service := .none } := by
  induction text generalizing s addr with
  | nil =>
    rw [List.append_nil]
    exact steps_succ _ _ 0 (step_of_puts_end hrun (Memory.holdsString_nil h))
  | cons b text ih =>
    obtain ⟨hfirst, hne, hrest⟩ := Memory.holdsString_cons h
    have hstep := step_of_puts_char (addr := addr) hrun (by rw [hfirst]; exact hne)
    rw [hfirst] at hstep
    have hwritten : (s.conWrite b).cout ++ text = s.cout ++ b :: text := by
      rw [State.conWrite_cout, List.append_assoc, List.singleton_append]
    rw [List.length_cons, steps_succ _ _ _ hstep, ih (s := s.conWrite b) hrun hrest, hwritten]
    rfl

/-- Settles O32: the steps from the first substep on write the string. -/
theorem putsWritesTheString : Obligations.PutsWritesTheString := by
  unfold Obligations.PutsWritesTheString
  refine ⟨fun w h => decodeWord_service h rfl, rfl, fun s text hrun hchars hend => ⟨_, exec_puts s, ?_⟩⟩
  rw [steps_beginService _ hrun Service.noConfusion]
  exact steps_of_puts hrun ⟨hchars, hend⟩

/-- R165: with no terminator PUTS has written as many characters as it has taken steps, and goes on. -/
theorem steps_of_puts_unterminated {s : State} {addr : Word} (n : Nat) (hrun : s.run = .running)
    (h : ∀ a : Word, (s.mem.readWord a).setWidth 8 ≠ (0 : Byte)) :
    ∃ text next, text.length = n ∧
      steps n (s.setService (.puts addr)) = .next { s with cout := s.cout ++ text, service := .puts next } := by
  induction n generalizing s addr with
  | zero => exact ⟨[], addr, rfl, by rw [List.append_nil]; rfl⟩
  | succ n ih =>
    obtain ⟨text, next, hlength, hsteps⟩ :=
      ih (s := s.conWrite ((s.mem.readWord addr).setWidth 8)) (addr := addr + 1) hrun h
    refine ⟨(s.mem.readWord addr).setWidth 8 :: text, next, by rw [List.length_cons, hlength], ?_⟩
    rw [steps_succ _ _ n (step_of_puts_char hrun (h addr)), hsteps, State.conWrite_cout, List.append_assoc,
      List.singleton_append]
    rfl

/-- Settles O33: each of the steps, the first substep among them, writes a character and leaves PUTS under way. -/
theorem putsWithoutTerminatorNeverEnds : Obligations.PutsWithoutTerminatorNeverEnds := by
  unfold Obligations.PutsWithoutTerminatorNeverEnds
  refine fun s hrun h => ⟨_, exec_puts s, fun n => ?_⟩
  obtain ⟨text, next, hlength, hsteps⟩ := steps_of_puts_unterminated (addr := s.gpr[(0 : RegIdx)]) (n + 1) hrun h
  refine ⟨_, (steps_beginService n hrun Service.noConfusion).trans hsteps, Service.noConfusion, hrun, ?_⟩
  rw [List.length_append, hlength, Nat.add_assoc]

/-! ### IN (R166) -/

theorem exec_inChar (s : State) : exec .inChar s = .next (s.beginService (inProgress Config.inPrompt)) := rfl

theorem inProgress_ne_none (prompt : List Byte) : inProgress prompt ≠ .none := by
  cases prompt <;> exact Service.noConfusion

/-- R166, R169: IN writes what is left of the prompt, one byte in each step, and comes to the read. -/
theorem steps_of_inPrompt {s : State} (prompt : List Byte) (hrun : s.run = .running) :
    steps prompt.length (s.setService (inProgress prompt)) =
      .next { s with cout := s.cout ++ prompt, service := .inRead } := by
  induction prompt generalizing s with
  | nil =>
    rw [List.append_nil]
    rfl
  | cons b rest ih =>
    have hstep : step (s.setService (inProgress (b :: rest))) = .next ((s.conWrite b).setService (inProgress rest)) :=
      step_of_service (s.setService (inProgress (b :: rest))) hrun Service.noConfusion
    have hwritten : (s.conWrite b).cout ++ rest = s.cout ++ b :: rest := by
      rw [State.conWrite_cout, List.append_assoc, List.singleton_append]
    rw [List.length_cons, steps_succ _ _ _ hstep, ih (s := s.conWrite b) hrun, hwritten]
    rfl

theorem step_of_inRead {s : State} (hrun : s.run = .running) (hservice : s.service = .inRead) :
    step s = .next s.inReadSubstep := by
  simp only [step, State.serviceStep, hrun, hservice]

/-- R161, log 10: a Running core that waits at IN's read answers the same state. -/
theorem step_of_inRead_nil {s : State} (hrun : s.run = .running) (hservice : s.service = .inRead) (hcin : s.cin = []) :
    step s = .next s := by
  rw [step_of_inRead hrun hservice, s.inReadSubstep_nil hcin]

theorem step_of_inRead_cons {s : State} {b : Byte} {rest : List Byte} (hrun : s.run = .running)
    (hservice : s.service = .inRead) (hcin : s.cin = b :: rest) :
    step s = .next { s with cin := rest, service := .inEcho b } := by
  rw [step_of_inRead hrun hservice, s.inReadSubstep_cons b rest hcin]

/-- R166: the echo and the write of R0. -/
theorem step_of_inEcho {s : State} {b : Byte} (hrun : s.run = .running) (hservice : s.service = .inEcho b) :
    step s = .next { s with
      gpr := s.gpr.set 0 (b.setWidth 16),
      cond := if Config.inUpdatesFlags then signFlag (b.setWidth 16) else s.cond,
      cout := s.cout ++ [b], service := .none } := by
  have hstep : step s = .next (s.inEchoSubstep b) := by simp only [step, State.serviceStep, hrun, hservice]
  rw [hstep, ← setCC_eq_signFlag]
  rfl

/-- Settles O34: the prompt, then the read, then the echo. -/
theorem inPromptsReadsAndEchoes : Obligations.InPromptsReadsAndEchoes := by
  unfold Obligations.InPromptsReadsAndEchoes
  refine ⟨fun w h => decodeWord_service h rfl, rfl, fun s b rest hrun hcin => ⟨_, exec_inChar s, ?_⟩⟩
  have hread :=
    step_of_inRead_cons (s := { s with cout := s.cout ++ Config.inPrompt, service := .inRead }) hrun rfl hcin
  rw [steps_beginService _ hrun (inProgress_ne_none _), Nat.add_assoc,
    steps_add _ (1 + 1) (steps_of_inPrompt Config.inPrompt hrun), steps_succ _ _ 1 hread]
  exact steps_succ _ _ 0 (step_of_inEcho hrun rfl)

/-- Settles O35: the prompt, then the wait at the read. -/
theorem inWithoutInputWaitsAfterThePrompt : Obligations.InWithoutInputWaitsAfterThePrompt := by
  unfold Obligations.InWithoutInputWaitsAfterThePrompt
  refine fun s hrun hcin => ⟨_, exec_inChar s, fun n hn => ?_⟩
  obtain ⟨extra, hextra⟩ : ∃ extra, n + 1 = Config.inPrompt.length + extra := Nat.exists_eq_add_of_le (by omega)
  rw [steps_beginService n hrun (inProgress_ne_none _), hextra,
    steps_add _ extra (steps_of_inPrompt Config.inPrompt hrun)]
  exact steps_of_fixed _ extra (step_of_inRead_nil hrun rfl hcin)

/-! ### A read that waited (R161) -/

/-- Settles O38: a byte supplied to a core that had none is the one the read takes. -/
theorem blockedReadWaitsAndResumes : Obligations.BlockedReadWaitsAndResumes := by
  unfold Obligations.BlockedReadWaitsAndResumes
  have hsupplied {s : State} (hcin : s.cin = []) (b : Byte) : (s.supplyInput [b]).cin = [b] := by
    rw [State.supplyInput_cin, hcin, List.nil_append]
  refine ⟨fun s hrun hcin hservice => ⟨step_of_getc_nil hrun hservice hcin, fun b => ?getc⟩,
    fun s hrun hcin hservice => ⟨step_of_inRead_nil hrun hservice hcin, fun b => ?read⟩⟩
  case getc =>
    rw [step_of_getc (s := s.supplyInput [b]) hrun hservice, State.getcSubstep_cons _ b [] (hsupplied hcin b), ← hcin]
    rfl
  case read =>
    rw [step_of_inRead_cons (s := s.supplyInput [b]) hrun hservice (hsupplied hcin b), ← hcin]
    rfl

end Sys2Proof.Machine
end

section
/-! PROOFS of 20_memory.md, memories as data (R50, R51): the canonical form gives each contents of the 65,536 words one
list of cells, and the loader's copy of 65,536 words from address 0 makes any contents. -/

namespace Sys2Proof.Machine

/-! ### Cells in canonical form -/

theorem cellsWf_cons_iff {lo k : Nat} {b : Byte} {cs : List Host.Cell} :
    cellsWf lo ((k, b) :: cs) = true ↔
      lo ≤ k ∧ k < 2 * Config.memoryWords ∧ b ≠ Memory.unlistedByte ∧ cellsWf (k + 1) cs = true := by
  simp only [cellsWf, Bool.and_eq_true, decide_eq_true_eq, bne_iff_ne, and_assoc]

/-- A canonical list has no entry below its lower bound. -/
theorem cellsRead_of_lt {lo a : Nat} {cs : List Host.Cell} (h : cellsWf lo cs = true) (ha : a < lo) :
    cellsRead cs a = Memory.unlistedByte := by
  induction cs generalizing lo with
  | nil => rfl
  | cons c cs ih =>
    obtain ⟨k, b⟩ := c
    obtain ⟨hlo, -, -, hrest⟩ := cellsWf_cons_iff.mp h
    have hne : ¬ k = a := by omega
    rw [cellsRead, if_neg hne, ih hrest (by omega)]

/-- A canonical list has no entry above memory. -/
theorem cellsRead_of_ge {lo a : Nat} {cs : List Host.Cell} (h : cellsWf lo cs = true)
    (ha : 2 * Config.memoryWords ≤ a) : cellsRead cs a = Memory.unlistedByte := by
  induction cs generalizing lo with
  | nil => rfl
  | cons c cs ih =>
    obtain ⟨k, b⟩ := c
    obtain ⟨-, hlt, -, hrest⟩ := cellsWf_cons_iff.mp h
    have hne : ¬ k = a := by omega
    rw [cellsRead, if_neg hne, ih hrest]

theorem cellsRead_cons_self (k : Nat) (b : Byte) (cs : List Host.Cell) : cellsRead ((k, b) :: cs) k = b := if_pos rfl

theorem cellsRead_cons_ne {k a : Nat} (b : Byte) (cs : List Host.Cell) (h : k ≠ a) :
    cellsRead ((k, b) :: cs) a = cellsRead cs a := if_neg h

/-- Of two canonical lists that read alike, the one does not begin before the other: its first entry would be missing
there. -/
theorem le_of_cellsRead_eq {lo k k' : Nat} {b b' : Byte} {cs cs' : List Host.Cell}
    (h : cellsWf lo ((k, b) :: cs) = true) (h' : cellsWf lo ((k', b') :: cs') = true)
    (hread : ∀ a, cellsRead ((k, b) :: cs) a = cellsRead ((k', b') :: cs') a) : k' ≤ k := by
  obtain ⟨-, -, hb, -⟩ := cellsWf_cons_iff.mp h
  obtain ⟨-, hlt', hb', hrest'⟩ := cellsWf_cons_iff.mp h'
  by_contra hlt
  have htail : cellsWf k' ((k', b') :: cs') = true := cellsWf_cons_iff.mpr ⟨Nat.le_refl k', hlt', hb', hrest'⟩
  have hunlisted := cellsRead_of_lt htail (Nat.lt_of_not_le hlt)
  rw [← hread, cellsRead_cons_self] at hunlisted
  exact hb hunlisted

/-- Two canonical lists that read alike are equal. -/
theorem cells_ext {lo : Nat} {cs cs' : List Host.Cell} (h : cellsWf lo cs = true) (h' : cellsWf lo cs' = true)
    (hread : ∀ a, cellsRead cs a = cellsRead cs' a) : cs = cs' := by
  induction cs generalizing lo cs' with
  | nil =>
    cases cs' with
    | nil => rfl
    | cons c cs' =>
      obtain ⟨k, b⟩ := c
      obtain ⟨-, -, hb, -⟩ := cellsWf_cons_iff.mp h'
      exact absurd ((cellsRead_cons_self k b cs').symm.trans (hread k).symm) hb
  | cons c cs ih =>
    obtain ⟨k, b⟩ := c
    cases cs' with
    | nil =>
      obtain ⟨-, -, hb, -⟩ := cellsWf_cons_iff.mp h
      exact absurd ((cellsRead_cons_self k b cs).symm.trans (hread k)) hb
    | cons c' cs' =>
      obtain ⟨k', b'⟩ := c'
      obtain rfl : k = k' := Nat.le_antisymm
        (le_of_cellsRead_eq h' h fun a => (hread a).symm) (le_of_cellsRead_eq h h' hread)
      obtain ⟨-, -, -, hrest⟩ := cellsWf_cons_iff.mp h
      obtain ⟨-, -, -, hrest'⟩ := cellsWf_cons_iff.mp h'
      obtain rfl : b = b' := by simpa only [cellsRead_cons_self] using hread k
      refine congrArg _ (ih hrest hrest' fun a => ?_)
      by_cases ha : k = a
      · rw [← ha, cellsRead_of_lt hrest (Nat.lt_succ_self k), cellsRead_of_lt hrest' (Nat.lt_succ_self k)]
      · have hrestRead := hread a
        rwa [cellsRead_cons_ne b cs ha, cellsRead_cons_ne b cs' ha] at hrestRead

/-! ### Bytes from words -/

theorem field_hi_wordOfBytes (hi lo : Byte) : field (wordOfBytes hi lo) 8 8 = hi :=
  BitVec.extractLsb'_append_eq_left

theorem field_lo_wordOfBytes (hi lo : Byte) : field (wordOfBytes hi lo) 0 8 = lo :=
  BitVec.extractLsb'_append_eq_right

/-- R50: every byte address inside memory is one of a word's two. -/
theorem byteAddr_cases {k : Nat} (h : k < 2 * Config.memoryWords) :
    ∃ a : Word, k = hiByteAddr a ∨ k = loByteAddr a := by
  rw [Config.memoryWords] at h
  have hword : (BitVec.ofNat 16 (k / 2)).toNat = k / 2 := Nat.mod_eq_of_lt (by omega)
  refine ⟨BitVec.ofNat 16 (k / 2), ?_⟩
  rw [hiByteAddr, loByteAddr, hword]
  omega

/-- R51: memories that read the same words read the same bytes inside memory. -/
theorem Memory.readByte_eq_of_readWord_eq {m m' : Memory} (h : ∀ a : Word, m.readWord a = m'.readWord a) {k : Nat}
    (hk : k < 2 * Config.memoryWords) : m.readByte k = m'.readByte k := by
  obtain ⟨a, rfl | rfl⟩ := byteAddr_cases hk
  · simpa only [Memory.readWord, field_hi_wordOfBytes] using congrArg (field · 8 8) (h a)
  · simpa only [Memory.readWord, field_lo_wordOfBytes] using congrArg (field · 0 8) (h a)

/-- Settles O54: the memories read the same bytes, inside and outside the 65,536 words, so their lists are equal. -/
theorem canonicalMemoriesAreExtensional : Obligations.CanonicalMemoriesAreExtensional := by
  unfold Obligations.CanonicalMemoriesAreExtensional
  intro m m' hwf hwf' hwords
  suffices hcells : m.cells = m'.cells from congrArg Memory.mk hcells
  refine cells_ext hwf hwf' fun k => ?_
  by_cases hk : k < 2 * Config.memoryWords
  · exact Memory.readByte_eq_of_readWord_eq hwords hk
  · rw [cellsRead_of_ge hwf (Nat.le_of_not_lt hk), cellsRead_of_ge hwf' (Nat.le_of_not_lt hk)]

/-! ### Every contents -/

/-- R50: the words of a contents, from address 0 up. -/
def allWords (f : Word → Word) : List Word := (List.range Config.memoryWords).map fun k => f (BitVec.ofNat 16 k)

theorem length_allWords (f : Word → Word) : (allWords f).length = 65536 := by
  rw [allWords, List.length_map, List.length_range, Config.memoryWords]

theorem getElem_allWords (f : Word → Word) (k : Nat) (h : k < (allWords f).length) :
    (allWords f)[k] = f (BitVec.ofNat 16 k) := by
  simp only [allWords, List.getElem_map, List.getElem_range]

/-- Settles O55: the contents copied over empty memory, as the loader copies an image. -/
theorem everyContentsIsAMemory : Obligations.EveryContentsIsAMemory := by
  unfold Obligations.EveryContentsIsAMemory
  intro f
  refine ⟨State.reset.mem.writeWords 0#16 (allWords f), Memory.wf_writeWords _ _ _ State.reset_mem_wf, fun a => ?_⟩
  have hlength := length_allWords f
  have ha : a.toNat < (allWords f).length := by
    rw [hlength]
    exact a.isLt
  have hread := State.reset.mem.readWord_writeWords 0#16 hlength.le a.toNat ha
  rwa [getElem_allWords, BitVec.zero_add, BitVec.ofNat_toNat, BitVec.setWidth_eq] at hread

end Sys2Proof.Machine
end
